-- ==== Sys2Proof/Word.lean ====
section
/-! DEFINITION. The bus word: every command, control register and window access is 32 bits wide
(spec/00_scope.md R5 `XLEN_BUS`, spec/30_encoding.md R90). Operand values are plain naturals (R6). -/

namespace Sys2Proof

/-- A 32-bit bus word (R5, R90). -/
abbrev Word := BitVec 32

end Sys2Proof
end

