-- ==== Sys2Proof/Config.lean ====
section
/-! DEFINITION. What one instance of the block fixes (spec/00_scope.md R5) and the free values of the
randomness source (spec/60_exceptions.md R212, R213). The constants have no body: no proof can see them. -/

namespace Sys2Proof.Config

/-- The open parameters of R5: `WORDS = extraWords + 1` bus words an operand register, and the window
at `BASE = 4096 * basePage`. The bound keeps `W = 32 * WORDS` below `2^32`, as `zext_32(W)` of R30
asks. DEDUCED, log entry 2; safe. -/
structure Params where
  extraWords : Fin 134217727
  basePage   : Nat
  deriving DecidableEq, Repr, Inhabited

/-- `WORDS`, the bus words of one operand register, at least 1 (R5). -/
def Params.words (p : Params) : Nat := p.extraWords.val + 1

/-- `W`, the width of an operand register: a multiple of 32, at least 32 (R5). -/
def Params.width (p : Params) : Nat := 32 * p.words

/-- `BASE`, the bus address of the window: a multiple of 4096 (R5). -/
def Params.base (p : Params) : Nat := 4096 * p.basePage

/-- The parameters of the machine that `State.reset` describes: OPEN in R5, so uninterpreted.
DESIGN CHOICE, log entry 1; safe. -/
opaque params : Params

/-- The source's answer to `uniform_below(bound)`, a FREE VALUE (R136, R213, U16): nothing bounds it,
so an answer at or above `bound` is possible and `RngRange` can happen (R205). It depends on the seed and
on how many answers were given since `init`, the generator internals of R34.
DESIGN CHOICE, log entry 3. -/
opaque uniformBelow (seed position bound : Nat) : Nat

/-- The source's answer to the host's own `uniform_bits(n)`, a FREE VALUE among the bit strings of length `n`, which
are the integers of `[0, 2^n)` (R176, R212, R215). DESIGN CHOICE, log entry 3. -/
opaque uniformBits (seed position n : Nat) : BitVec n

end Sys2Proof.Config
end

