-- ==== Sys2Proof/Syntax.lean ====
section
/-! DEFINITION. The three commands of spec/opcode_table.json (spec/30_encoding.md R93), the only kind
of instruction the block has. A register field is the 4 bits the format gives it (R91); which values are
legal is WellFormed's business. -/

namespace Sys2Proof

/-- A register field of a command word: 4 bits, of which only 0 to 7 name a register (R91). -/
abbrev Field := BitVec 4

/-- The commands of R93, one constructor per row of the opcode table. -/
inductive Instr where
  /-- MODMUL `xd, xa, xb, xm`: `x[rd] <- (x[ra] * x[rb]) mod x[rm]` (spec/40_modmul.md R111). -/
  | modmul (rd ra rb rm : Field)
  /-- MODEXP `xd, xa, xb, xm`: `x[rd] <- pow_mod(x[ra], x[rb], x[rm])` (spec/41_modexp.md R121). -/
  | modexp (rd ra rb rm : Field)
  /-- MRTEST `xa`: `STATUS.PRIME <-` the Miller-Rabin verdict on `x[ra]` (spec/42_mrtest.md R138). -/
  | mrtest (ra : Field)
  deriving DecidableEq, Repr

end Sys2Proof
end

