-- ==== Sys2Proof/Machine/State.lean ====
section
/-! DEFINITION. The state of the system the spec asks the model to carry (spec/10_state.md R20): the
block's registers and flags, the randomness source (R34), and the model's own schedule of moves.
Plain data throughout. Reset values: R35. -/

namespace Sys2Proof.Machine

/-- The five errors a completion can raise (spec/60_exceptions.md R200). `ERRCODE` is held as an
`Option Error`: exactly the six values the register can hold (U12). -/
inductive Error where
  /-- Code 1: the accepted word matches no command (R201). -/
  | illegalCommand
  /-- Code 2: MODMUL or MODEXP with `x[rm] = 0` (R202). -/
  | modulusZero
  /-- Code 3: MRTEST with `x[ra] < 5` or even (R203). -/
  | operandDomain
  /-- Code 4: a witness draw found the source not READY (R204). -/
  | rngNotReady
  /-- Code 5: the source answered a draw with a value at or above its bound (R205). -/
  | rngRange
  deriving DecidableEq, Repr

/-- The lifecycle of the randomness source (R34). -/
inductive RngState where
  /-- Before `init(seed)`. -/
  | uninit
  /-- From `init(seed)` until `clear()`. -/
  | ready
  /-- After `clear()`, for good. -/
  | cleared
  deriving DecidableEq, Repr

/-- The randomness source: its lifecycle state, and the generator's internals as R34 names them, the seed
and how far along its sequence it is (the number of answers given since `init`). -/
structure Source where
  state    : RngState
  seed     : Nat
  position : Nat
  deriving DecidableEq, Repr

/-- One of the eight operand registers `x0` to `x7` (R21). -/
abbrev RegIdx := Fin 8

/-- The result of one Miller-Rabin trial (spec/42_mrtest.md R137). -/
inductive Trial where
  | pass
  | composite
  deriving DecidableEq, Repr

/-- What the rounds of an MRTEST end in: every round passed, one found the operand composite, or a draw
raised an error (R138). -/
inductive Verdict where
  | prime
  | composite
  | failed (e : Error)
  deriving DecidableEq, Repr

/-- A move of one of the three agents (R9, R20, R251): the model's schedule is a list of these. -/
inductive Move where
  /-- The host's `MemRead(addr, size)`, `addr` a bus address, `size` in bytes (spec/00_scope.md R8). -/
  | read (addr size : Nat)
  /-- The host's `MemWrite(addr, size, v)` (R8). -/
  | write (addr size : Nat) (v : Word)
  /-- The host's `wait` (spec/30_encoding.md R97): `STATUS` is read until a read shows BUSY = 0; the host makes no
  move of its own meanwhile. One step of it is one read. -/
  | wait
  /-- The host's `init(seed)` on the source (R214). -/
  | rngInit (seed : Nat)
  /-- The host's `clear()` on the source (R214). -/
  | rngClear
  /-- The host's own `uniform_below(bound)` (R215). -/
  | rngBelow (bound : Nat)
  /-- The host's own `uniform_bits(n)` (R215). -/
  | rngBits (n : Nat)
  /-- A hard reset of the block (spec/70_reset_and_hazards.md R240). -/
  | hardReset
  /-- The engine's turn: the completion of the command in flight, if there is one (R32). -/
  | engine
  /-- The source answers the draw the engine waits for with `d`: one round of the MRTEST in flight, the
  sub-step R32 allows. -/
  | answer (d : Nat)
  deriving DecidableEq, Repr

/-- What the host's latest move was given. -/
inductive Response where
  | none
  /-- The bus word a read returned. -/
  | data (w : Word)
  /-- The source's answer to the host's own call. -/
  | answer (v : Nat)
  deriving DecidableEq, Repr

/-- Where a register of the window stands (spec/20_memory.md R61). -/
inductive Target where
  | cmd
  | status
  | ctrl
  | mrIters
  | paramW
  | lastCmd
  /-- Word `k` of `x[i]`. -/
  | operand (i : RegIdx) (k : Nat)
  deriving DecidableEq, Repr

/-- The complete state of the system (R20). -/
structure State where
  /-- The parameters of R5, constant: no step changes them. -/
  params  : Config.Params
  /-- The operand registers `x[0]` to `x[7]`, naturals below `2^W` (R21). -/
  x       : Vector Nat 8
  /-- `STATUS.BUSY` (R24). -/
  busy    : Bool
  /-- `STATUS.DONE` (R24). -/
  done    : Bool
  /-- `STATUS.ERR` (R24). -/
  err     : Bool
  /-- `STATUS.PRIME` (R24). -/
  prime   : Bool
  /-- `STATUS.HZD` (R24). -/
  hzd     : Bool
  /-- `STATUS.ERRCODE`; `none` is code 0 (R24, R200). -/
  errCode : Option Error
  /-- `MR_ITERS` (R28). -/
  mrIters : Word
  /-- `LASTCMD` (R29). -/
  lastCmd : Word
  /-- Hidden (R33): how many rounds the MRTEST in flight has passed; 0 when none is in flight. -/
  roundsPassed : Nat
  /-- The randomness source (R34), outside the block and inside the system. -/
  rng     : Source
  /-- The model's own: the moves still to be made, next first (R250). DESIGN CHOICE, log entry 5. -/
  agenda  : List Move
  /-- The model's own: what the host's latest move was given. DESIGN CHOICE, log entry 15. -/
  response : Response
  deriving DecidableEq, Repr

/-- Why the machine stops. No command raises one: a command's errors are `STATUS` states (R206). -/
inductive Fault where
  /-- The host made an access the window does not admit: a size other than 4, misaligned, at a reserved
  offset, or outside the window (R62, R63). The block answers with a bus error and changes nothing; the model
  has no move beyond it. Raised by `hostRead` and `hostWrite`. Safe. -/
  | busError
  deriving DecidableEq, Repr

/-- Why the model has no move. -/
inductive Refusal where
  /-- An instruction without a meaning. Every command has one, so nothing raises it. Safe. -/
  | notModelled (mnemonic : String)
  /-- The host made `init` outside UNINIT, or `clear` outside READY (R214, U1). Raised by `hostInit` and
  `hostClear`. Safe. -/
  | sourceLifecycle
  /-- The host moved or called the source while a command runs (R214, R215, R251). Raised by `hostInit`,
  `hostClear`, `hostBelow`, `hostBits`. Safe. -/
  | sourceWhileBusy
  /-- The host called a source that is not READY (U1, R251). Raised by `hostBelow`, `hostBits`. Safe. -/
  | sourceNotReady
  /-- The host asked `uniform_below(0)`, which has no legal answer (spec/91_not_in_source.md N7). Raised by
  `hostBelow`. Safe. -/
  | emptyRange
  /-- The schedule lets the source answer a draw that no MRTEST waits for (R213). Raised by `sourceAnswer`.
  Safe. -/
  | unsolicitedAnswer
  deriving DecidableEq, Repr

/-- The system at power-on with parameters `p`: R35 for the block, UNINIT for the source; the generator's
seed and position, which R35 leaves unspecified, are 0 (DESIGN CHOICE, log entry 9; unsafe). -/
def State.powerOn (p : Config.Params) : State where
  params := p
  x := #v[0, 0, 0, 0, 0, 0, 0, 0]
  busy := false
  done := false
  err := false
  prime := false
  hzd := false
  errCode := none
  mrIters := 0
  lastCmd := 0
  roundsPassed := 0
  rng := { state := .uninit, seed := 0, position := 0 }
  agenda := []
  response := .none

/-- The machine right after reset (R35), for the block's own, uninterpreted, parameters. -/
def State.reset : State := State.powerOn Config.params

end Sys2Proof.Machine
end

