-- ==== Sys2Proof/Machine/Flags.lean ====
section
/-! DEFINITION. `STATUS`: the word it reads as (spec/10_state.md R24) and the one flag a command computes,
`PRIME` (R25). -/

namespace Sys2Proof.Machine

/-- The code of an error in `STATUS.ERRCODE` (spec/60_exceptions.md R200). -/
def Error.code : Error → BitVec 4
  | .illegalCommand => 1
  | .modulusZero => 2
  | .operandDomain => 3
  | .rngNotReady => 4
  | .rngRange => 5

/-- `STATUS.ERRCODE` as four bits: 0 when no error is held (R24). -/
def errCodeBits : Option Error → BitVec 4
  | none => 0
  | some e => e.code

/-- `STATUS.RNGRDY`: 1 exactly when the source is READY (R34). -/
def Source.isReady (g : Source) : Bool := decide (g.state = .ready)

/-- The word `STATUS` reads as (R24): BUSY 0, DONE 1, ERR 2, PRIME 3, HZD 4, RNGRDY 5, 7:6 zero, ERRCODE 11:8,
31:12 zero. -/
def statusWord (s : State) : Word :=
  0#20 ++ errCodeBits s.errCode ++ 0#2 ++ BitVec.ofBool s.rng.isReady ++ BitVec.ofBool s.hzd ++
    BitVec.ofBool s.prime ++ BitVec.ofBool s.err ++ BitVec.ofBool s.done ++ BitVec.ofBool s.busy

/-- Write `STATUS.PRIME` (R25: only a successful MRTEST does). -/
def setPrime (b : Bool) (s : State) : State := { s with prime := b }

end Sys2Proof.Machine
end

