-- ==== Sys2Proof/Machine/Ops.lean ====
section
/-! DEFINITION. The named operations on the block's state: registers, acceptance, the two ways a command
ends, taking an error and returning from it, the dropped write and the reset. -/

namespace Sys2Proof.Machine

/-- Read `x[i]` (spec/10_state.md R21). -/
def getX (i : RegIdx) (s : State) : Nat := s.x[i]

/-- Write `x[i]` (R21): no register is hard-wired, no value is truncated. -/
def setX (i : RegIdx) (v : Nat) (s : State) : State := { s with x := s.x.set i v }

/-- Acceptance of the word `w` (R26), in a state with BUSY = 0 and ERR = 0. The engine starts with no round
passed (R33). -/
def accept (w : Word) (s : State) : State :=
  { s with lastCmd := w, busy := true, done := false, roundsPassed := 0 }

/-- A completion's end with success (R32); the working values are gone (R33). -/
def succeed (s : State) : State := { s with busy := false, done := true, roundsPassed := 0 }

/-- TAKING AN ERROR: a completion's end with error `e` (R32, spec/60_exceptions.md R206). Nothing is saved but
the code: no register, PRIME, HZD, MR_ITERS or LASTCMD changes. -/
def raiseError (e : Error) (s : State) : State :=
  { s with busy := false, done := true, err := true, errCode := some e, roundsPassed := 0 }

/-- RETURN FROM AN ERROR: `CTRL.CLRERR` honoured (R27, R207). -/
def clearError (s : State) : State :=
  { s with err := false, errCode := none, hzd := false, done := false }

/-- A host write the block does not honour (spec/20_memory.md R67): only HZD is set. -/
def dropWrite (s : State) : State := { s with hzd := true }

/-- A block reset, hard or soft (R35, spec/70_reset_and_hazards.md R240, R241): every piece of block state to its
value of R35. The source, the host's moves still to come and what the host last saw are not the block's (R242). -/
def blockReset (s : State) : State :=
  { s with
    x := #v[0, 0, 0, 0, 0, 0, 0, 0], busy := false, done := false, err := false, prime := false,
    hzd := false, errCode := none, mrIters := 0, lastCmd := 0, roundsPassed := 0 }

/-- What the host's move is given (model's own, log entry 15). -/
def respond (r : Response) (s : State) : State := { s with response := r }

end Sys2Proof.Machine
end

