-- ==== Sys2Proof/Machine/Operands.lean ====
section
/-! DEFINITION. Operand forms: a register field names a register (spec/30_encoding.md R91, R92); a bus word is
one word of a register (spec/20_memory.md R61, R64); and the form MODMUL and MODEXP share. -/

namespace Sys2Proof.Machine

/-- The register a field names: none for 8 to 15 (R91). -/
def regIndex (f : Field) : Option RegIdx := if h : f.toNat < 8 then some ⟨f.toNat, h⟩ else none

/-- The field that names a register (R91, R97). -/
def fieldOf (i : RegIdx) : Field := BitVec.ofNat 4 i.val

/-- Word `k` of a register value: bits `32k+31 : 32k` (R64). -/
def wordOf (v k : Nat) : Word := BitVec.ofNat 32 (v / 2 ^ (32 * k))

/-- Replace bits `32k+31 : 32k` of `v` by `w`, the other bits unchanged (R66). -/
def replaceWord (v k : Nat) (w : Word) : Nat :=
  v / 2 ^ (32 * (k + 1)) * 2 ^ (32 * (k + 1)) + w.toNat * 2 ^ (32 * k) + v % 2 ^ (32 * k)

/-- The form of MODMUL and MODEXP (spec/40_modmul.md R111, spec/41_modexp.md R121): read `x[ra]`, `x[rb]`, `x[rm]`;
`ModulusZero` if the modulus is 0, before anything is computed (R202); else `x[rd] <- f`, written last (R21). A
field outside 0 to 7, which decoding never lets through, is `IllegalCommand` (R201; log entry 14). -/
def modulusCommand (f : Nat → Nat → Nat → Nat) (rd ra rb rm : Field) (s : State) : State :=
  match regIndex rd, regIndex ra, regIndex rb, regIndex rm with
  | some d, some a, some b, some m =>
    if getX m s = 0 then raiseError .modulusZero s
    else succeed (setX d (f (getX a s) (getX b s) (getX m s)) s)
  | _, _, _, _ => raiseError .illegalCommand s

end Sys2Proof.Machine
end

