-- ==== Sys2Proof/Machine/Bus.lean ====
section
/-! DEFINITION. The bus window (spec/20_memory.md): the address map, what each register reads as, and what a
write to each does, acceptance (spec/10_state.md R26) and the control actions (R27) among them. -/

namespace Sys2Proof.Machine

/-- The register at an aligned byte offset of the window, for parameters `p` (R61); none at a reserved offset,
past the window, or misaligned (R62, R63). -/
def targetAt (p : Config.Params) (off : Nat) : Option Target :=
  if off % 4 ≠ 0 then none
  else if off = 0x000 then some .cmd
  else if off = 0x004 then some .status
  else if off = 0x008 then some .ctrl
  else if off = 0x00C then some .mrIters
  else if off = 0x010 then some .paramW
  else if off = 0x014 then some .lastCmd
  else if 0x1000 ≤ off then
    if h : (off - 0x1000) / (4 * p.words) < 8 then
      some (.operand ⟨(off - 0x1000) / (4 * p.words), h⟩ ((off - 0x1000) % (4 * p.words) / 4))
    else none
  else none

/-- The byte offset of word `k` of `x[i]` in the window (R61). -/
def operandOffset (p : Config.Params) (i : RegIdx) (k : Nat) : Nat := 0x1000 + i * (4 * p.words) + 4 * k

/-- The register an access of `size` bytes at bus address `addr` reaches, if the window admits it (R62, R63). -/
def accessTarget (p : Config.Params) (addr size : Nat) : Option Target :=
  if size = 4 ∧ p.base ≤ addr then targetAt p (addr - p.base) else none

/-- The word a register of the window reads as (R23, R24, R30, R31, R65). -/
def readTarget (t : Target) (s : State) : Word :=
  match t with
  | .cmd => 0
  | .status => statusWord s
  | .ctrl => 0
  | .mrIters => s.mrIters
  | .paramW => BitVec.ofNat 32 s.params.width
  | .lastCmd => s.lastCmd
  | .operand i k => wordOf (getX i s) k

/-- A write of `w` to `CMD`: acceptance, or the word is dropped (R26). -/
def writeCmd (w : Word) (s : State) : State :=
  if s.busy = false ∧ s.err = false then accept w s else dropWrite s

/-- A write of `w` to `CTRL` (R27): `CLRERR = w[0]`, `SRST = w[1]`, bits 31:2 ignored. -/
def writeCtrl (w : Word) (s : State) : State :=
  if s.busy then
    if w.getLsbD 0 || w.getLsbD 1 then dropWrite s else s
  else if w.getLsbD 1 then blockReset s
  else if w.getLsbD 0 then clearError s
  else s

/-- A plain store, honoured only while BUSY = 0, else dropped (R28, R66, R67). -/
def storeIdle (f : State → State) (s : State) : State := if s.busy then dropWrite s else f s

/-- The effect of a host write of `w` to a register of the window (R23, R26 to R28, R66, R67). Writes to the
read-only registers have no effect at all. -/
def writeTarget (t : Target) (w : Word) (s : State) : State :=
  match t with
  | .cmd => writeCmd w s
  | .status => s
  | .ctrl => writeCtrl w s
  | .mrIters => storeIdle (fun s => { s with mrIters := w }) s
  | .paramW => s
  | .lastCmd => s
  | .operand i k => storeIdle (fun s => setX i (replaceWord (getX i s) k w) s) s

/-- The host's `MemRead(addr, size)`: the word, no side effect (R65, R69); a bus error if not admitted. -/
def hostRead (addr size : Nat) (s : State) : Host.Outcome State Fault Refusal :=
  match accessTarget s.params addr size with
  | some t => .next (respond (.data (readTarget t s)) s)
  | none => .fault .busError

/-- The host's `MemWrite(addr, size, w)` (R66, R67); a bus error if not admitted. -/
def hostWrite (addr size : Nat) (w : Word) (s : State) : Host.Outcome State Fault Refusal :=
  match accessTarget s.params addr size with
  | some t => .next (respond .none (writeTarget t w s))
  | none => .fault .busError

end Sys2Proof.Machine
end

