-- ==== Sys2Proof/WellFormed.lean ====
section
/-! DEFINITION. Which instruction terms are commands: every register field a command uses is 0 to 7
(spec/30_encoding.md R91, R94). -/

namespace Sys2Proof

/-- A register field that names one of the eight registers: bit 3 is 0 (R91). -/
def fieldLegal (f : Field) : Bool := decide (f.toNat < 8)

/-- Every field the command uses is legal (R91, R94). -/
def Instr.wf : Instr → Bool
  | .modmul rd ra rb rm => fieldLegal rd && fieldLegal ra && fieldLegal rb && fieldLegal rm
  | .modexp rd ra rb rm => fieldLegal rd && fieldLegal ra && fieldLegal rb && fieldLegal rm
  | .mrtest ra => fieldLegal ra

/-- `Instr.wf` as a proposition. -/
abbrev Instr.WellFormed (i : Instr) : Prop := i.wf = true

end Sys2Proof
end

