-- ==== Sys2Proof/Decode.lean ====
section
/-! DEFINITION. Decoding of a command word, total on all `2^32` words (spec/30_encoding.md R96), the
opcode map as match and mask (R93), and the encoder of R93 and R97. -/

namespace Sys2Proof

/-- Why a word is no command (R94). All four end in the same `IllegalCommand`, so which one a word
gets cannot be observed (R96). -/
inductive DecodeError where
  /-- `zero` is not `0x00`. -/
  | reservedBits
  /-- `opcode` is none of `0x01`, `0x02`, `0x03`. -/
  | unknownOpcode
  /-- A used register field is 8 to 15. -/
  | registerRange
  /-- A field MRTEST does not use is not 0. -/
  | unusedField
  deriving DecidableEq, Repr

/-- Bits 31:24 of format C (R91). -/
def opcodeOf (c : Word) : BitVec 8 := c.extractLsb' 24 8
/-- Bits 23:20 of format C (R91). -/
def rdOf (c : Word) : Field := c.extractLsb' 20 4
/-- Bits 19:16 of format C (R91). -/
def raOf (c : Word) : Field := c.extractLsb' 16 4
/-- Bits 15:12 of format C (R91). -/
def rbOf (c : Word) : Field := c.extractLsb' 12 4
/-- Bits 11:8 of format C (R91). -/
def rmOf (c : Word) : Field := c.extractLsb' 8 4
/-- Bits 7:0 of format C (R91). -/
def zeroOf (c : Word) : BitVec 8 := c.extractLsb' 0 8

/-- The command a four-operand opcode stands for, if its four fields are legal (R96). -/
def decodeFour (mk : Field → Field → Field → Field → Instr) (c : Word) : Except DecodeError Instr :=
  if (mk (rdOf c) (raOf c) (rbOf c) (rmOf c)).wf then .ok (mk (rdOf c) (raOf c) (rbOf c) (rmOf c))
  else .error .registerRange

/-- Decoding of a command word, check for check in the order of R96. -/
def decode (c : Word) : Except DecodeError Instr :=
  if zeroOf c ≠ 0 then .error .reservedBits
  else if opcodeOf c = 0x01 then decodeFour .modmul c
  else if opcodeOf c = 0x02 then decodeFour .modexp c
  else if opcodeOf c = 0x03 then
    if fieldLegal (raOf c) = false then .error .registerRange
    else if rdOf c ≠ 0 ∨ rbOf c ≠ 0 ∨ rmOf c ≠ 0 then .error .unusedField
    else .ok (.mrtest (raOf c))
  else .error .unknownOpcode

/-- Format C put together from its six fields, `zero` being 0 (R91). -/
def formatC (opcode : BitVec 8) (rd ra rb rm : Field) : Word :=
  opcode ++ rd ++ ra ++ rb ++ rm ++ (0#8)

/-- The word of a command (R93, R97). -/
def encode : Instr → Word
  | .modmul rd ra rb rm => formatC 0x01 rd ra rb rm
  | .modexp rd ra rb rm => formatC 0x02 rd ra rb rm
  | .mrtest ra => formatC 0x03 0 ra 0 0

/-- The `match` column of R93 for a command's row. -/
def rowMatch : Instr → Word
  | .modmul .. => 0x01000000
  | .modexp .. => 0x02000000
  | .mrtest .. => 0x03000000

/-- The `mask` column of R93 for a command's row. -/
def rowMask : Instr → Word
  | .modmul .. => 0xFF8888FF
  | .modexp .. => 0xFF8888FF
  | .mrtest .. => 0xFFF8FFFF

/-- The instruction this decoder reads from the opcode table's bits: one 32-bit word, bit 0 its least
significant bit, the bits from `nbits` up being 0. `none` where the word is illegal. -/
def decodeTableWord (nbits w : Nat) : Option Instr :=
  (decode (BitVec.ofNat 32 (w % 2 ^ nbits))).toOption

end Sys2Proof
end

