-- ==== Sys2Proof/Machine/Arith.lean ====
section
/-! DEFINITION. The pure functions of the three units, on exact naturals: `modmul` (spec/40_modmul.md
R110), `pow_mod` (spec/41_modexp.md R120), `decompose` and `mr_round` (spec/42_mrtest.md R135, R137). Each loop
is structural in a bound its rule gives. -/

namespace Sys2Proof.Machine

/-- `bitlen(v)`: 0 for 0, else `floor(log2 v) + 1` (spec/00_scope.md R6). -/
def bitlen (v : Nat) : Nat := if v = 0 then 0 else Nat.log2 v + 1

/-- `modmul(a, b, m) = (a * b) mod m` on the exact product (R110); never asked with `m = 0`. -/
def modmul (a b m : Nat) : Nat := a * b % m

/-- The loop of `pow_mod` (R120) from accumulator `v`, running base `p` and running exponent `e`. The first
argument bounds the iterations; `bitlen(e)` suffices (R122). -/
def powLoop (m : Nat) : Nat → Nat → Nat → Nat → Nat
  | 0, v, _, _ => v
  | k + 1, v, p, e =>
    if e = 0 then v
    else powLoop m k (if e % 2 = 1 then modmul v p m else v) (modmul p p m) (e / 2)

/-- `pow_mod(base, exponent, modulus)` (R120): the accumulator starts at the unreduced 1. -/
def powMod (base exponent modulus : Nat) : Nat := powLoop modulus (bitlen exponent) 1 base exponent

/-- The halving loop of `decompose` (R135): while `r` is even, halve it and count. The first argument bounds
the iterations; any bound of at least `bitlen(r)` will do for `r >= 1`. -/
def halveLoop : Nat → Nat → Nat → Nat × Nat
  | 0, s, r => (s, r)
  | k + 1, s, r => if r % 2 = 0 then halveLoop k (s + 1) (r / 2) else (s, r)

/-- `decompose(n)` (R135, reading A of C10): the pair `(s, r)` with `n - 1 = 2^s * r` and `r` odd. -/
def decompose (n : Nat) : Nat × Nat := halveLoop (bitlen n) 1 ((n - 1) / 2)

/-- The squaring loop of `mr_round` (R137); the first argument is the number of squarings still allowed. It
leaves as soon as `y = n - 1`, and tests `y = 1` right after each squaring (D33). -/
def squareLoop (n : Nat) : Nat → Nat → Trial
  | 0, y => if y = n - 1 then .pass else .composite
  | k + 1, y =>
    if y = n - 1 then .pass
    else if modmul y y n = 1 then .composite
    else squareLoop n k (modmul y y n)

/-- `mr_round(n, s, r, a)`: one trial with witness `a` (R137). -/
def mrRound (n s r a : Nat) : Trial :=
  if powMod a r n = 1 then .pass else squareLoop n (s - 1) (powMod a r n)

end Sys2Proof.Machine
end

