-- ==== Sys2Proof/Machine/Modexp.lean ====
section
/-! DEFINITION. MODEXP, unit ME (spec/41_modexp.md). -/

namespace Sys2Proof.Machine

/-- MODEXP: `x[rd] <- pow_mod(x[ra], x[rb], x[rm])`, `ModulusZero` if `x[rm] = 0`, also when the exponent is 0
(R121, R125). The base need not be below the modulus (R124, C7). -/
def execModexp (rd ra rb rm : Field) (s : State) : Host.Outcome State Fault Refusal :=
  .next (modulusCommand powMod rd ra rb rm s)

end Sys2Proof.Machine
end

