-- ==== Sys2Proof/Machine/Modmul.lean ====
section
/-! DEFINITION. MODMUL, unit MM (spec/40_modmul.md). -/

namespace Sys2Proof.Machine

/-- MODMUL: `x[rd] <- (x[ra] * x[rb]) mod x[rm]`, `ModulusZero` if `x[rm] = 0` (R111). The plain product, not
a Montgomery one (R113, C1). -/
def execModmul (rd ra rb rm : Field) (s : State) : Host.Outcome State Fault Refusal :=
  .next (modulusCommand modmul rd ra rb rm s)

end Sys2Proof.Machine
end

