-- ==== Sys2Proof/Machine/Source.lean ====
section
/-! DEFINITION. The randomness source: the `RndBelow` transaction (spec/60_exceptions.md R213), the witness draw
(spec/42_mrtest.md R136), and the host's own moves on the source (R214, R215, R251). -/

namespace Sys2Proof.Machine

/-- The generator after one more answer (R34, R213). -/
def Source.advance (g : Source) : Source := { g with position := g.position + 1 }

/-- The `RndBelow(bound)` transaction in which the source's answer is `d` (R213): not READY, the source is not
asked; else it advances, and an answer at or above `bound` is `RngRange`. -/
def rndBelow (d bound : Nat) (g : Source) : Except Error Nat × Source :=
  if g.isReady then (if d < bound then .ok d else .error .rngRange, g.advance)
  else (.error .rngNotReady, g)

/-- `draw_witness(n)` in which the source's answer is `d`: one transaction with bound `n - 3`, the witness is
`2 + d` (R136). -/
def drawWitness (d n : Nat) (g : Source) : Except Error Nat × Source :=
  match rndBelow d (n - 3) g with
  | (.ok d', g') => (.ok (2 + d'), g')
  | (.error e, g') => (.error e, g')

/-- The answer the source gives next to `uniform_below(bound)`: a free value of its seed and position (R213). -/
def Source.freeAnswer (g : Source) (bound : Nat) : Nat := Config.uniformBelow g.seed g.position bound

/-- What `uniform_below(bound)` gives the HOST: an integer of `[0, bound)`, as the source's contract has it (R176, R212);
only the block's own draw is checked and may be out of range (R205, U17). The source's answer where that is in range,
and some value of the range whatever it is. Log entry 4. -/
def Source.hostBelow (g : Source) (bound : Nat) : Nat := g.freeAnswer bound % bound

/-- What `uniform_bits(n)` gives the host: an integer of `[0, 2^n)` (R176, R212). -/
def Source.hostBits (g : Source) (n : Nat) : Nat := (Config.uniformBits g.seed g.position n).toNat

/-- The host's `init(seed)` (R214): allowed only in UNINIT and only while BUSY = 0 (R251). -/
def hostInit (seed : Nat) (s : State) : Host.Outcome State Fault Refusal :=
  if s.busy then .refused .sourceWhileBusy
  else if s.rng.state = .uninit then
    .next (respond .none { s with rng := { state := .ready, seed := seed, position := 0 } })
  else .refused .sourceLifecycle

/-- The host's `clear()` (R214): allowed only in READY and only while BUSY = 0 (R251). -/
def hostClear (s : State) : Host.Outcome State Fault Refusal :=
  if s.busy then .refused .sourceWhileBusy
  else if s.rng.state = .ready then
    .next (respond .none { s with rng := { s.rng with state := .cleared } })
  else .refused .sourceLifecycle

/-- A call of the host's own on the source (R215): while READY and BUSY = 0 (R251); the host is given the
source's answer `v` and the generator advances by one. -/
def hostCall (v : Nat) (s : State) : Host.Outcome State Fault Refusal :=
  if s.busy then .refused .sourceWhileBusy
  else if s.rng.isReady then .next (respond (.answer v) { s with rng := s.rng.advance })
  else .refused .sourceNotReady

/-- The host's own `uniform_below(bound)` (R215); a bound of 0 has no legal answer (N7). -/
def hostBelow (bound : Nat) (s : State) : Host.Outcome State Fault Refusal :=
  if bound = 0 then .refused .emptyRange else hostCall (s.rng.hostBelow bound) s

/-- The host's own `uniform_bits(n)` (R215). -/
def hostBits (n : Nat) (s : State) : Host.Outcome State Fault Refusal :=
  hostCall (s.rng.hostBits n) s

end Sys2Proof.Machine
end

