-- ==== Sys2Proof/Machine/Mrtest.lean ====
section
/-! DEFINITION. MRTEST, unit MR (spec/42_mrtest.md): the domain check, the rounds, the verdict. -/

namespace Sys2Proof.Machine

/-- The domain of MRTEST: odd and at least 5 (R139). -/
def inDomain (n : Nat) : Bool := decide (5 ≤ n) && decide (n % 2 = 1)

/-- One round of MRTEST on `n` in which the source's answer is `d`: the draw, then the trial (R138). -/
def mrTrial (n d : Nat) (g : Source) : Verdict × Source :=
  match drawWitness d n g with
  | (.error e, g') => (.failed e, g')
  | (.ok a, g') =>
    match mrRound n (decompose n).1 (decompose n).2 a with
    | .pass => (.prime, g')
    | .composite => (.composite, g')

/-- `k` rounds with the source's own answers, in order: the first that does not pass ends them and later draws
are not asked for (R138, R145). No round passes vacuously (R141). -/
def mrRounds (n : Nat) : Nat → Source → Verdict × Source
  | 0, g => (.prime, g)
  | k + 1, g =>
    match mrTrial n (g.freeAnswer (n - 3)) g with
    | (.prime, g') => mrRounds n k g'
    | r => r

/-- The end of an MRTEST (R138): the verdict to PRIME, or the error; the draws stay consumed either way (R142). -/
def mrFinish (r : Verdict × Source) (s : State) : State :=
  match r.1 with
  | .prime => succeed (setPrime true { s with rng := r.2 })
  | .composite => succeed (setPrime false { s with rng := r.2 })
  | .failed e => raiseError e { s with rng := r.2 }

/-- The rounds an MRTEST still has to run: `MR_ITERS` (R28) less those its earlier sub-steps passed (R32). -/
def roundsLeft (s : State) : Nat := s.mrIters.toNat - s.roundsPassed

/-- MRTEST: `OperandDomain` before any draw, else the rounds and the verdict (R138). A field outside 0 to 7, which
decoding never lets through, is `IllegalCommand` (R201; log entry 14). -/
def execMrtest (ra : Field) (s : State) : Host.Outcome State Fault Refusal :=
  match regIndex ra with
  | none => .next (raiseError .illegalCommand s)
  | some a =>
    if inDomain (getX a s) then .next (mrFinish (mrRounds (getX a s) (roundsLeft s) s.rng) s)
    else .next (raiseError .operandDomain s)

end Sys2Proof.Machine
end

