-- ==== Sys2Proof/Machine/Engine.lean ====
section
/-! DEFINITION. The engine's step (spec/10_state.md R32): the completion of the command in LASTCMD, whole or, for
MRTEST, one answered draw at a time. -/

namespace Sys2Proof.Machine

/-- The completion of the command in LASTCMD: decode, run, or `IllegalCommand` (R32, R201). -/
def complete (s : State) : Host.Outcome State Fault Refusal :=
  match decode s.lastCmd with
  | .ok i => exec i s
  | .error _ => .next (raiseError .illegalCommand s)

/-- The engine's turn: its one step while BUSY = 1; it has none while BUSY = 0 (R32). -/
def engineTurn (s : State) : Host.Outcome State Fault Refusal :=
  if s.busy then complete s else .next s

/-- The operand of the MRTEST in flight that waits for a draw, if there is one: the word decodes, the operand
is in the domain, a round is left and the source is READY (R138, R213). -/
def drawPending (s : State) : Option Nat :=
  match decode s.lastCmd with
  | .ok (.mrtest ra) =>
    match regIndex ra with
    | some a =>
      if s.busy && inDomain (getX a s) && decide (0 < roundsLeft s) && s.rng.isReady then some (getX a s)
      else none
    | none => none
  | _ => none

/-- One round of the MRTEST in flight, the source having answered its draw with `d` (R32's sub-step): a passed
round is counted, anything else ends the command as R138 says. -/
def roundStep (n d : Nat) (s : State) : State :=
  match mrTrial n d s.rng with
  | (.prime, g) => { s with rng := g, roundsPassed := s.roundsPassed + 1 }
  | r => mrFinish r s

/-- The source answers a draw with `d`; it answers only when asked (R213). -/
def sourceAnswer (d : Nat) (s : State) : Host.Outcome State Fault Refusal :=
  match drawPending s with
  | some n => .next (roundStep n d s)
  | none => .refused .unsolicitedAnswer

end Sys2Proof.Machine
end

