-- ==== Sys2Proof/Machine/Moves.lean ====
section
/-! DEFINITION. The moves of the three agents (spec/00_scope.md R9, spec/70_reset_and_hazards.md R250, R251), each one
indivisible step (R10), taken in the order of the schedule. -/

namespace Sys2Proof.Machine

/-- Whether a move is the host's own; the others are the engine's turn, the source's answer and the hard reset, which the
platform makes (R240, R249). -/
def Move.isHost : Move → Bool
  | .read _ _ => true
  | .write _ _ _ => true
  | .wait => true
  | .rngInit _ => true
  | .rngClear => true
  | .rngBelow _ => true
  | .rngBits _ => true
  | .hardReset => false
  | .engine => false
  | .answer _ => false

/-- The schedule after a poll of `wait` that saw BUSY = 1, `rest` being what was scheduled after the wait: the next move
of another agent comes first, then the wait goes on. Where no such move is next the engine has its turn, since
it is never starved (R249). Log entry 25. -/
def whileWaiting : List Move → List Move
  | [] => [.engine, .wait]
  | m :: rest => if m.isHost then .engine :: .wait :: m :: rest else m :: .wait :: rest

/-- One poll of `wait` (spec/30_encoding.md R97): a read `s` of `STATUS`, at `BASE + 0x004`; with `s[0] = 0` the wait is over
and `s` is left to the host, else it goes on. -/
def hostWait (s : State) : Host.Outcome State Fault Refusal :=
  match hostRead (s.params.base + 0x004) 4 s with
  | .next t =>
    .next (if (statusWord s).getLsbD 0 then { t with agenda := whileWaiting s.agenda } else t)
  | .fault r => .fault r
  | .refused r => .refused r

/-- The effect of one move, on the state whose schedule holds the moves after it. -/
def takeMove (m : Move) (s : State) : Host.Outcome State Fault Refusal :=
  match m with
  | .read addr size => hostRead addr size s
  | .write addr size v => hostWrite addr size v s
  | .wait => hostWait s
  | .rngInit seed => hostInit seed s
  | .rngClear => hostClear s
  | .rngBelow bound => hostBelow bound s
  | .rngBits n => hostBits n s
  | .hardReset => .next (blockReset s)
  | .engine => engineTurn s
  | .answer d => sourceAnswer d s

/-- One step of the system: the next move of the schedule; with none left the engine completes the command in
flight, if there is one (R249), and an idle block stays as it is (R250). -/
def stepSystem (s : State) : Host.Outcome State Fault Refusal :=
  match s.agenda with
  | [] => engineTurn s
  | m :: rest => takeMove m { s with agenda := rest }

/-- `s` with the moves `ms` scheduled before all others. -/
def schedule (ms : List Move) (s : State) : State := { s with agenda := ms ++ s.agenda }

/-- `n` steps, up to the first that stops (R70, R250). -/
def runFor : Nat → State → Host.Outcome State Fault Refusal
  | 0, s => .next s
  | n + 1, s =>
    match stepSystem s with
    | .next t => runFor n t
    | .fault r => .fault r
    | .refused r => .refused r

/-- `s` with the word `c` accepted and the engine to move next: what a host's `CMD` write of `c` to an idle block
without an error leaves (R26), followed by the engine's turn. -/
def withCommand (c : Word) (s : State) : State :=
  { accept c s with err := false, errCode := none, agenda := .engine :: s.agenda }

end Sys2Proof.Machine
end

