-- ==== Sys2Proof/Machine/Step.lean ====
section
/-! DEFINITION. The step of the machine and the host's way to place a command. -/

namespace Sys2Proof.Machine

/-- One step (spec/70_reset_and_hazards.md R250): the next move of `State.agenda`. -/
def step (s : State) : Host.Outcome State Fault Refusal := stepSystem s

/-- `s` with the table word `w` as the command in flight, so that the very next step completes it: the block has
no fetch (spec/10_state.md R22), a command is the word in LASTCMD. Log entry 6. -/
def State.withFetchWord (s : State) (nbits w : Nat) : State :=
  withCommand (BitVec.ofNat 32 (w % 2 ^ nbits)) s

end Sys2Proof.Machine
end

