-- ==== Sys2Proof/Machine/Assembler.lean ====
section
/-! DEFINITION. The assembler's notation (spec/30_encoding.md R97, R98): pseudo-instructions as the commands they stand
for, and the host's directives as the moves they stand for (spec/20_memory.md R76). -/

namespace Sys2Proof.Machine

/-- `modsqr xd, xa, xm` is `modmul xd, xa, xa, xm` (R98, R115). -/
def modsqr (rd ra rm : Field) : Instr := .modmul rd ra ra rm
/-- `encrypt xc, xmsg, xe, xn` is `modexp xc, xmsg, xe, xn` (R98). -/
def encrypt (rc rmsg re rn : Field) : Instr := .modexp rc rmsg re rn
/-- `decrypt xmsg, xc, xd, xn` is `modexp xmsg, xc, xd, xn` (R98). -/
def decrypt (rmsg rc rd rn : Field) : Instr := .modexp rmsg rc rd rn
/-- `sign xs, xh, xd, xn` is `modexp xs, xh, xd, xn` (R98). -/
def sign (rs rh rd rn : Field) : Instr := .modexp rs rh rd rn

/-- `ldreg xi, v`, the derived move `LoadReg(i, v)` (R76). R76 allows any order of the writes; ascending `k` is the model's
own: DESIGN CHOICE, log entry 26. -/
def ldreg (p : Config.Params) (i : RegIdx) (v : Nat) : List Move :=
  (List.range p.words).map fun k => .write (p.base + operandOffset p i k) 4 (wordOf v k)
/-- `rdreg xi`, the derived move `StoreReg(i)` (R76). R76 fixes no order of the reads; ascending `k` is the model's own:
DESIGN CHOICE, log entry 26. -/
def rdreg (p : Config.Params) (i : RegIdx) : List Move :=
  (List.range p.words).map fun k => .read (p.base + operandOffset p i k) 4
/-- `setiters v` (R97). -/
def setiters (p : Config.Params) (v : Word) : List Move := [.write (p.base + 0x00C) 4 v]
/-- `issue <command>` (R97). -/
def issue (p : Config.Params) (i : Instr) : List Move := [.write (p.base + 0x000) 4 (encode i)]
/-- `wait`: polls of `STATUS` until BUSY is clear; the last one read is left to the host (R97). -/
def wait : List Move := [.wait]
/-- A bare command line: `issue` followed by `wait` (R97). -/
def commandLine (p : Config.Params) (i : Instr) : List Move := issue p i ++ wait
/-- `clrerr` (R97). -/
def clrerr (p : Config.Params) : List Move := [.write (p.base + 0x008) 4 0x00000001]
/-- `srst` (R97). -/
def srst (p : Config.Params) : List Move := [.write (p.base + 0x008) 4 0x00000002]

end Sys2Proof.Machine
end

