-- ==== Sys2Proof/Safety.lean ====
section
/-! DEFINITION. What counts as a sound state and a good end of a run (spec/10_state.md R21, R25,
spec/70_reset_and_hazards.md R250). -/

namespace Sys2Proof.Machine

/-- The flag invariants that R25 says always hold. -/
def FlagsSound (s : State) : Prop :=
  (s.busy = true → s.done = false ∧ s.err = false) ∧
  (s.err = true → s.done = true ∧ s.busy = false ∧ s.errCode ≠ none) ∧
  (s.err = false → s.errCode = none)

/-- Every operand register holds a natural below `2^W` (R21). -/
def OperandsFit (s : State) : Prop := ∀ i : RegIdx, getX i s < 2 ^ s.params.width

/-- The hidden round counter is 0 unless a command is in flight (R33, R35), and never passes MR_ITERS (R138). -/
def RoundsSound (s : State) : Prop :=
  (s.busy = false → s.roundsPassed = 0) ∧ s.roundsPassed ≤ s.mrIters.toNat

/-- The next move can be (a part of) a completion: it is the engine's turn, the source's answer to a draw (R32), or, with
no move left, the engine's (R249; the model's choice, log entry 7). -/
def EnginesMove (s : State) : Prop :=
  s.agenda = [] ∨ (∃ rest, s.agenda = .engine :: rest) ∨ ∃ d rest, s.agenda = .answer d :: rest

/-- The run is over: no host move is left and no command is in flight (R250). -/
def RunOver (s : State) : Prop := s.agenda = [] ∧ s.busy = false

/-- A good end of a run (R250). -/
def GoodEnd (s : State) : Prop := RunOver s ∧ s.err = false ∧ s.hzd = false

end Sys2Proof.Machine
end

