-- ==== Sys2Proof/Certificates/Slice0/Obligations.lean ====
section
/-! DEFINITION. The statements for the provers, from the numbered rules of spec/. A next state is written out as the
old state with the fields that change: every field not named in it is unchanged, which is the statement's frame. There
is no data memory (spec/20_memory.md R60), so a frame has no memory clause. -/

open Sys2Proof Sys2Proof.Machine

/-! ## Encoding (spec/30_encoding.md) -/

/-- Words written out from the bit patterns of R93 decode to the commands they stand for, and words R94 calls
illegal decode to none. -/
def Obligations.WordsFromTheOpcodeMapDecode : Prop :=
  decode 0b00000001_0011_0000_0001_0010_00000000 = .ok (.modmul 3 0 1 2) ∧
  decode 0b00000001_0111_0111_0111_0111_00000000 = .ok (.modmul 7 7 7 7) ∧
  decode 0b00000010_0100_0001_0010_0011_00000000 = .ok (.modexp 4 1 2 3) ∧
  decode 0b00000011_0000_0101_0000_0000_00000000 = .ok (.mrtest 5) ∧
  (decode 0x00000000).toOption = none ∧ (decode 0xFFFFFFFF).toOption = none ∧
  (decode 0x01301201).toOption = none ∧ (decode 0x01301A00).toOption = none ∧
  (decode 0x03080000).toOption = none ∧ (decode 0x03100000).toOption = none

/-- Every command's word decodes to the command, with every operand at every value it may have (R93, R96, R97). -/
def Obligations.DecodeOfEncodeIsTheCommand : Prop :=
  ∀ i : Instr, i.WellFormed → decode (encode i) = .ok i

/-- A word that decodes is the word of the command it decodes to, and that command's fields are legal: no two words
are one command and no bit of a word is ignored (R94, R96). -/
def Obligations.EncodeOfDecodeIsTheWord : Prop :=
  ∀ (c : Word) (i : Instr), decode c = .ok i → i.WellFormed ∧ encode i = c

/-- "A word `c` is the command of a row exactly when `(c AND mask) = match`" (R93), for the three rows, with the
fields R91 places: and every word that matches no row is illegal (R94). -/
def Obligations.DecodeAgreesWithMatchAndMask : Prop :=
  ∀ c : Word,
    (c &&& 0xFF8888FF = 0x01000000 ↔ decode c = .ok (.modmul (rdOf c) (raOf c) (rbOf c) (rmOf c))) ∧
    (c &&& 0xFF8888FF = 0x02000000 ↔ decode c = .ok (.modexp (rdOf c) (raOf c) (rbOf c) (rmOf c))) ∧
    (c &&& 0xFFF8FFFF = 0x03000000 ↔ decode c = .ok (.mrtest (raOf c))) ∧
    ((decode c).toOption = none ↔
      c &&& 0xFF8888FF ≠ 0x01000000 ∧ c &&& 0xFF8888FF ≠ 0x02000000 ∧ c &&& 0xFFF8FFFF ≠ 0x03000000)

/-! ## MODMUL and MODEXP (spec/40_modmul.md, spec/41_modexp.md) -/

/-- MODMUL with a nonzero modulus completes with `x[rd] = (x[ra] * x[rb]) mod x[rm]`, whichever of the four
registers coincide; the flags BUSY and DONE are those of a successful completion, nothing else changes but the hidden
round counter (R111, R112). -/
def Obligations.ModmulWritesTheProductRemainder : Prop :=
  ∀ (s : State) (d a b m : RegIdx), getX m s ≠ 0 →
    exec (.modmul (fieldOf d) (fieldOf a) (fieldOf b) (fieldOf m)) s =
      .next { s with
        x := s.x.set d (getX a s * getX b s % getX m s)
        busy := false, done := true, roundsPassed := 0 }

/-- MODEXP with a nonzero modulus completes with `x[rd]` the power's remainder; for modulus 1 it is 1 when the exponent
is 0 and else 0 (R121, R123, R125). -/
def Obligations.ModexpWritesThePowerRemainder : Prop :=
  ∀ (s : State) (d a b m : RegIdx), getX m s ≠ 0 →
    exec (.modexp (fieldOf d) (fieldOf a) (fieldOf b) (fieldOf m)) s =
      .next { s with
        x := s.x.set d
          (if getX m s = 1 then (if getX b s = 0 then 1 else 0) else getX a s ^ getX b s % getX m s)
        busy := false, done := true, roundsPassed := 0 }

/-- MODMUL and MODEXP with `x[rm] = 0` end in ModulusZero, also when the exponent is 0, and no register changes
(R202, R206). -/
def Obligations.ZeroModulusRaisesModulusZero : Prop :=
  ∀ (s : State) (d a b m : RegIdx), getX m s = 0 →
    let t : State := { s with
      busy := false, done := true, err := true, errCode := some .modulusZero, roundsPassed := 0 }
    exec (.modmul (fieldOf d) (fieldOf a) (fieldOf b) (fieldOf m)) s = .next t ∧
    exec (.modexp (fieldOf d) (fieldOf a) (fieldOf b) (fieldOf m)) s = .next t

/-- The value law of `pow_mod` (R123): its three bullets. -/
def Obligations.PowModValueLaw : Prop :=
  ∀ base exponent modulus : Nat,
    (2 ≤ modulus → powMod base exponent modulus = base ^ exponent % modulus) ∧
    (modulus = 1 → powMod base exponent modulus = if exponent = 0 then 1 else 0) ∧
    (1 ≤ modulus → powMod base exponent modulus < max modulus 2) ∧
    (∀ p : Config.Params, 1 ≤ modulus → modulus < 2 ^ p.width → powMod base exponent modulus < 2 ^ p.width)

/-- Continuation from the running values R122 gives (R122): from the values it states after `k` iterations the loop goes
on to the very result of `pow_mod`, and its running exponent `E >> k` is 0 exactly at `k = bitlen(E)`. -/
def Obligations.PowModLoopAfterEachIteration : Prop :=
  ∀ B E m k : Nat, 1 ≤ m → k ≤ bitlen E →
    powMod B E m =
      powLoop m (bitlen E - k)
        (if E % 2 ^ k = 0 then 1 else B ^ (E % 2 ^ k) % m)
        (if k = 0 then B else B ^ 2 ^ k % m)
        (E / 2 ^ k) ∧
    (E / 2 ^ k = 0 ↔ k = bitlen E)

/-- The pseudo-instruction `modsqr` is MODMUL with both factors equal (R98, R115), with R115's own word and
values. -/
def Obligations.ModsqrWritesTheSquareRemainder : Prop :=
  (∀ (s : State) (d a m : RegIdx), getX m s ≠ 0 →
    exec (modsqr (fieldOf d) (fieldOf a) (fieldOf m)) s =
      .next { s with
        x := s.x.set d (getX a s * getX a s % getX m s)
        busy := false, done := true, roundsPassed := 0 }) ∧
  encode (modsqr 0 0 2) = 0x01000200 ∧ modmul 263 263 561 = 166

/-- RSA's round trip through MODEXP (R127, R166): with two different primes, `n` their product and `d` inverse to
`e` modulo `lcm(p-1, q-1)`, decrypting what encrypting left gives the message back. -/
def Obligations.DecryptAfterEncryptReturnsTheMessage : Prop :=
  ∀ (s : State) (c g e d n : RegIdx) (p q : Nat),
    p.Prime → q.Prime → p ≠ q → getX n s = p * q →
    getX e s * getX d s % Nat.lcm (p - 1) (q - 1) = 1 % Nat.lcm (p - 1) (q - 1) →
    0 < getX e s * getX d s → getX g s < getX n s → c ≠ d → c ≠ n →
    ∃ t u : State, exec (encrypt (fieldOf c) (fieldOf g) (fieldOf e) (fieldOf n)) s = .next t ∧
      exec (decrypt (fieldOf g) (fieldOf c) (fieldOf d) (fieldOf n)) t = .next u ∧ getX g u = getX g s

/-! ## MRTEST (spec/42_mrtest.md) -/

/-- `decompose(n)` for odd `n >= 3` is the unique pair R135 asks for, and `s <= bitlen(n) - 1 < W`. -/
def Obligations.DecomposeGivesTheUniquePair : Prop :=
  ∀ n : Nat, 3 ≤ n → n % 2 = 1 →
    n - 1 = 2 ^ (decompose n).1 * (decompose n).2 ∧ (decompose n).2 % 2 = 1 ∧
    1 ≤ (decompose n).1 ∧ (decompose n).1 ≤ bitlen n - 1 ∧
    (∀ p : Config.Params, n < 2 ^ p.width → bitlen n - 1 < p.width) ∧
    ∀ s r : Nat, n - 1 = 2 ^ s * r → r % 2 = 1 → (s, r) = decompose n

/-- A witness draw for `n >= 5` gives a witness from 2 to `n - 2`, every one of them by exactly one answer, and
raises the two errors of the transaction otherwise (R136, R213). -/
def Obligations.WitnessDrawCoversItsRange : Prop :=
  ∀ (n d : Nat) (g : Source), 5 ≤ n →
    (g.state ≠ .ready → drawWitness d n g = (.error .rngNotReady, g)) ∧
    (g.state = .ready → d < n - 3 →
      drawWitness d n g = (.ok (2 + d), { g with position := g.position + 1 }) ∧ 2 ≤ 2 + d ∧ 2 + d ≤ n - 2) ∧
    (g.state = .ready → n - 3 ≤ d →
      drawWitness d n g = (.error .rngRange, { g with position := g.position + 1 })) ∧
    (∀ a : Nat, 2 ≤ a → a ≤ n - 2 → g.state = .ready → ∃! e : Nat, (drawWitness e n g).1 = .ok a)

/-- The closed form of one trial (R137). -/
def Obligations.TrialPassesExactlyByItsClosedForm : Prop :=
  ∀ n a : Nat, 5 ≤ n → n % 2 = 1 → 2 ≤ a → a ≤ n - 2 →
    (mrRound n (decompose n).1 (decompose n).2 a = .pass ↔
      a ^ (decompose n).2 % n = 1 ∨
      ∃ i : Nat, i ≤ (decompose n).1 - 1 ∧ a ^ (2 ^ i * (decompose n).2) % n = n - 1)

/-- "a true prime is always accepted" (R140): a prime passes every trial whatever the witness. -/
def Obligations.PrimePassesEveryTrial : Prop :=
  ∀ n a : Nat, n.Prime → 5 ≤ n → 2 ≤ a → a ≤ n - 2 →
    mrRound n (decompose n).1 (decompose n).2 a = .pass

/-- MRTEST on an operand below 5 or even ends in OperandDomain, before any draw and whatever the source's state
(R203, R209): nothing else changes, the source included. -/
def Obligations.MrtestOutsideItsDomainRaisesOperandDomain : Prop :=
  ∀ (s : State) (a : RegIdx), getX a s < 5 ∨ getX a s % 2 = 0 →
    exec (.mrtest (fieldOf a)) s =
      .next { s with
        busy := false, done := true, err := true, errCode := some .operandDomain, roundsPassed := 0 }

/-- MRTEST with `MR_ITERS = 0` declares every operand in its domain prime, draws nothing and does not look at the
source (R141). -/
def Obligations.MrtestWithNoRoundsDeclaresPrime : Prop :=
  ∀ (s : State) (a : RegIdx), 5 ≤ getX a s → getX a s % 2 = 1 → s.mrIters = 0 →
    exec (.mrtest (fieldOf a)) s =
      .next { s with busy := false, done := true, prime := true, roundsPassed := 0 }

/-- MRTEST in its domain with a round left to run and a source that is not READY ends in RngNotReady; PRIME and the
generator are unchanged (R204). -/
def Obligations.MrtestWithoutASourceRaisesRngNotReady : Prop :=
  ∀ (s : State) (a : RegIdx), 5 ≤ getX a s → getX a s % 2 = 1 → s.roundsPassed < s.mrIters.toNat →
    s.rng.state ≠ .ready →
    exec (.mrtest (fieldOf a)) s =
      .next { s with
        busy := false, done := true, err := true, errCode := some .rngNotReady, roundsPassed := 0 }

/-- MRTEST in its domain with a READY source always completes, and how, for every sequence of answers: the rounds run
in order, `k` of them pass, and then either none is left and PRIME is 1, or round `k + 1` finds the operand composite
and PRIME is 0, or its answer is out of range and the command ends in RngRange. The draws consumed are exactly those of
the rounds started (R138, R142, R205). The answers are free values: the statement holds whatever they are. -/
def Obligations.MrtestRunsItsRoundsInOrder : Prop :=
  ∀ (s : State) (a : RegIdx), 5 ≤ getX a s → getX a s % 2 = 1 → s.rng.state = .ready →
    let n := getX a s
    let left := s.mrIters.toNat - s.roundsPassed
    let answer : Nat → Nat := fun j => Config.uniformBelow s.rng.seed (s.rng.position + j) (n - 3)
    let trial : Nat → Trial := fun j => mrRound n (decompose n).1 (decompose n).2 (2 + answer j)
    let drawn : Nat → Source := fun k => { s.rng with position := s.rng.position + k }
    let ended : State := { s with busy := false, done := true, roundsPassed := 0 }
    ∃ k : Nat, k ≤ left ∧ (∀ j : Nat, j < k → answer j < n - 3 ∧ trial j = .pass) ∧
      ((k = left ∧ exec (.mrtest (fieldOf a)) s = .next { ended with prime := true, rng := drawn k }) ∨
       (k < left ∧ answer k < n - 3 ∧ trial k = .composite ∧
          exec (.mrtest (fieldOf a)) s = .next { ended with prime := false, rng := drawn (k + 1) }) ∨
       (k < left ∧ n - 3 ≤ answer k ∧
          exec (.mrtest (fieldOf a)) s =
            .next { ended with err := true, errCode := some .rngRange, rng := drawn (k + 1) }))

/-- One-sidedness at the machine's level (R140): an MRTEST of a prime, from a state without an error, never ends
without an error and with PRIME = 0. -/
def Obligations.MrtestNeverRejectsAPrime : Prop :=
  ∀ (s : State) (a : RegIdx), (getX a s).Prime → 5 ≤ getX a s → s.err = false →
    ∃ t : State, exec (.mrtest (fieldOf a)) s = .next t ∧ (t.err = false → t.prime = true)

/-- The other side does not hold (R140): there is a run of moves from an idle state that tests a composite and ends with
PRIME = 1 and no error, by a draw that hits a passing witness (174 for 221, R146). -/
def Obligations.MrtestCanAcceptAComposite : Prop :=
  ∃ (s t : State) (a : RegIdx), s.busy = false ∧ s.err = false ∧ getX a s = 221 ∧ ¬ Nat.Prime 221 ∧
    s.mrIters = 1 ∧
    runFor 3 (schedule (issue s.params (.mrtest (fieldOf a)) ++ [.answer 172, .engine]) s) = .next t ∧
    t.err = false ∧ t.prime = true

/-- A round of the MRTEST in flight, the source answering its draw with `d` (R32's sub-step, R138): out of range it is
RngRange, a composite trial ends the command with PRIME = 0, a passed one is counted; one draw is consumed. -/
def Obligations.AnsweredDrawRunsOneRound : Prop :=
  ∀ (s : State) (rest : List Move) (a : RegIdx) (d : Nat),
    s.agenda = .answer d :: rest → s.busy = true → decode s.lastCmd = .ok (.mrtest (fieldOf a)) →
    5 ≤ getX a s → getX a s % 2 = 1 → s.roundsPassed < s.mrIters.toNat → s.rng.state = .ready →
    let n := getX a s
    let u : State := { s with agenda := rest, rng := { s.rng with position := s.rng.position + 1 } }
    step s = .next
      (if n - 3 ≤ d then
        { u with busy := false, done := true, err := true, errCode := some .rngRange, roundsPassed := 0 }
      else if mrRound n (decompose n).1 (decompose n).2 (2 + d) = .composite then
        { u with busy := false, done := true, prime := false, roundsPassed := 0 }
      else { u with roundsPassed := s.roundsPassed + 1 })

/-- Splitting the MRTEST completion into one sub-step per draw changes nothing (R32): when the source answers the
pending draw with the very value the whole completion would have drawn, either the command has ended as the whole
completion ends it, or the completion from there ends as the whole completion does. -/
def Obligations.SplitCompletionAgreesWithTheWhole : Prop :=
  ∀ (s : State) (n : Nat), drawPending s = some n →
    ∃ t : State, sourceAnswer (Config.uniformBelow s.rng.seed s.rng.position (n - 3)) s = .next t ∧
      ((t.busy = false ∧ complete s = .next t) ∨ (t.busy = true ∧ complete t = complete s))

/-! ## The engine's step and the errors (spec/10_state.md R32, spec/60_exceptions.md) -/

/-- A step with the engine to move and a command in flight that decodes runs that command on the state with the move taken
off the schedule (R32). That it also runs it with no move left is the model's choice (log entry 7, from the first
fairness assumption of R249). -/
def Obligations.StepRunsTheDecodedCommand : Prop :=
  ∀ (s : State) (i : Instr) (rest : List Move), s.busy = true → decode s.lastCmd = .ok i →
    (s.agenda = .engine :: rest → step s = exec i { s with agenda := rest }) ∧
    (s.agenda = [] → step s = exec i s)

/-- A command in flight that does not decode ends in IllegalCommand; no register is read or written (R201). -/
def Obligations.IllegalWordRaisesIllegalCommand : Prop :=
  ∀ (s : State) (rest : List Move), s.agenda = .engine :: rest → s.busy = true →
    (decode s.lastCmd).toOption = none →
    step s = .next { s with
      agenda := rest, busy := false, done := true, err := true, errCode := some .illegalCommand, roundsPassed := 0 }

/-- While BUSY = 0 the engine has no step (R32). What the model's schedule makes of that is its own choice: a turn of the
engine then only leaves the schedule (log entry 13), and the step of a run that is over (R250) answers the same
state (log entry 7). -/
def Obligations.IdleEngineDoesNothing : Prop :=
  ∀ (s : State) (rest : List Move),
    (s.busy = false → s.agenda = .engine :: rest → step s = .next { s with agenda := rest }) ∧
    (RunOver s → step s = .next s)

/-- Issuing a command to an idle block without an error, then giving the engine its turn, runs exactly that command:
acceptance latches its word, and decoding reads the same command back (R26, R32, R245). A `wait` is polls of STATUS: one
that sees BUSY = 0 ends it and leaves the word, one that sees BUSY = 1 lets another agent move and the wait goes on
(R97; which agent moves is the schedule's, log entry 25). THE MODEL'S CHOICE (DESIGN CHOICE, log entry 25, unsafe for a claim
that a wait ends; from the first fairness assumption of R249) is what the third clause rests on: with no other agent
scheduled first, the wait of a bare command line, `issue` then `wait` (R97), ends after one turn of the engine that the
model itself puts in, four steps in all. The command is then completed as its own rule says and its STATUS is in the
host's hands (R245). -/
def Obligations.IssuedCommandRuns : Prop :=
  (∀ (s : State) (i : Instr), i.WellFormed → s.busy = false → s.err = false →
    runFor 2 (schedule (issue s.params i ++ [.engine]) s) =
      exec i { s with
        lastCmd := encode i, busy := true, done := false, roundsPassed := 0, response := .none }) ∧
  (∀ (s : State) (rest : List Move), s.agenda = .wait :: rest →
    step s = .next { s with
      response := .data (statusWord s), agenda := if s.busy = true then whileWaiting rest else rest }) ∧
  (∀ (s : State) (i : Instr), i.WellFormed → s.busy = false → s.err = false →
    (∀ m rest, s.agenda = m :: rest → m.isHost = true) →
    ∃ t : State,
      exec i { s with lastCmd := encode i, busy := true, done := false, roundsPassed := 0 } = .next t ∧
      t.busy = false ∧
      runFor 4 (schedule (commandLine s.params i) s) = .next { t with response := .data (statusWord t) })

/-- Every completion ends, with BUSY = 0 and DONE = 1, and what no command touches stays: HZD, MR_ITERS, LASTCMD, the
parameters, the lifecycle and seed of the source, the moves to come, what the host last saw (R25, R32, R206). -/
def Obligations.EveryCompletionEnds : Prop :=
  ∀ s : State, s.busy = true →
    ∃ t : State, engineTurn s = .next t ∧ t.busy = false ∧ t.done = true ∧ t.roundsPassed = 0 ∧
      t.hzd = s.hzd ∧ t.mrIters = s.mrIters ∧ t.lastCmd = s.lastCmd ∧ t.params = s.params ∧
      t.rng.state = s.rng.state ∧ t.rng.seed = s.rng.seed ∧ s.rng.position ≤ t.rng.position ∧
      t.agenda = s.agenda ∧ t.response = s.response

/-- Errors are precise (R206): from a state without an error, a completion that ends with ERR = 1 has written no
operand register and not PRIME, and ERRCODE names the error; one that ends with ERR = 0 leaves ERRCODE as it was. -/
def Obligations.ErrorCompletionWritesNoResult : Prop :=
  ∀ s t : State, s.busy = true → s.err = false → engineTurn s = .next t →
    (t.err = true → t.x = s.x ∧ t.prime = s.prime ∧ t.errCode ≠ none) ∧
    (t.err = false → t.errCode = s.errCode)

/-- The transaction `RndBelow(bound)` with the source's answer `d` (R213). -/
def Obligations.RndBelowTransaction : Prop :=
  ∀ (d bound : Nat) (g : Source),
    rndBelow d bound g =
      if g.state = .ready then
        (if bound ≤ d then .error .rngRange else .ok d, { g with position := g.position + 1 })
      else (.error .rngNotReady, g)

/-! ## Registers, flags and control registers (spec/10_state.md) -/

/-- A `CMD` write is accepted while BUSY = 0 and ERR = 0, and else dropped with HZD (R26). -/
def Obligations.CmdWriteAcceptsOrDrops : Prop :=
  ∀ (s : State) (rest : List Move) (w : Word), s.agenda = .write (s.params.base + 0x000) 4 w :: rest →
    step s = .next
      (if s.busy = false ∧ s.err = false then
        { s with
          agenda := rest, response := .none, lastCmd := w, busy := true, done := false, roundsPassed := 0 }
      else { s with agenda := rest, response := .none, hzd := true })

/-- A `CTRL` write (R27): dropped with HZD while BUSY if it asks for anything, else the soft reset, else the clear, else
nothing; bits 31:2 are ignored. -/
def Obligations.CtrlWriteActs : Prop :=
  ∀ (s : State) (rest : List Move) (w : Word), s.agenda = .write (s.params.base + 0x008) 4 w :: rest →
    let u : State := { s with agenda := rest, response := .none }
    step s = .next
      (if s.busy = true then (if w.getLsbD 0 = true ∨ w.getLsbD 1 = true then { u with hzd := true } else u)
      else if w.getLsbD 1 = true then
        { u with
          x := #v[0, 0, 0, 0, 0, 0, 0, 0], busy := false, done := false, err := false, prime := false,
          hzd := false, errCode := none, mrIters := 0, lastCmd := 0, roundsPassed := 0 }
      else if w.getLsbD 0 = true then
        { u with err := false, errCode := none, hzd := false, done := false }
      else u)

/-- An `MR_ITERS` write is honoured while BUSY = 0 and else dropped with HZD (R28). -/
def Obligations.MrItersWriteStoresOrDrops : Prop :=
  ∀ (s : State) (rest : List Move) (w : Word), s.agenda = .write (s.params.base + 0x00C) 4 w :: rest →
    step s = .next
      (if s.busy = true then { s with agenda := rest, response := .none, hzd := true }
      else { s with agenda := rest, response := .none, mrIters := w })

/-- Writes to STATUS, PARAM_W and LASTCMD have no effect at all at any time, not even HZD (R23, R67). -/
def Obligations.ReadOnlyRegistersIgnoreWrites : Prop :=
  ∀ (s : State) (rest : List Move) (w : Word) (off : Nat), off = 0x004 ∨ off = 0x010 ∨ off = 0x014 →
    s.agenda = .write (s.params.base + off) 4 w :: rest →
    step s = .next { s with agenda := rest, response := .none }

/-- What each control and status register reads as, at any time: CMD and CTRL read 0, STATUS its word, PARAM_W the
width, which 32 bits hold (R23, R24, R30, R31). -/
def Obligations.ControlRegistersReadBack : Prop :=
  ∀ (s : State) (rest : List Move) (off : Nat) (v : Word),
    (off, v) ∈ [(0x000, 0), (0x004, statusWord s), (0x008, 0), (0x00C, s.mrIters),
      (0x010, BitVec.ofNat 32 s.params.width), (0x014, s.lastCmd)] →
    s.agenda = .read (s.params.base + off) 4 :: rest →
    step s = .next { s with agenda := rest, response := .data v } ∧
      (BitVec.ofNat 32 s.params.width).toNat = s.params.width

/-- The layout of `STATUS`, bit by bit, with every reserved bit 0, and RNGRDY the mirror of the source (R24, R31, R34,
R200). -/
def Obligations.StatusWordLayout : Prop :=
  ∀ s : State,
    (statusWord s).getLsbD 0 = s.busy ∧ (statusWord s).getLsbD 1 = s.done ∧
    (statusWord s).getLsbD 2 = s.err ∧ (statusWord s).getLsbD 3 = s.prime ∧
    (statusWord s).getLsbD 4 = s.hzd ∧
    ((statusWord s).getLsbD 5 = true ↔ s.rng.state = .ready) ∧
    ((statusWord s).extractLsb' 8 4).toNat =
      (match s.errCode with
        | none => 0
        | some .illegalCommand => 1
        | some .modulusZero => 2
        | some .operandDomain => 3
        | some .rngNotReady => 4
        | some .rngRange => 5) ∧
    ∀ j : Nat, j = 6 ∨ j = 7 ∨ 12 ≤ j → (statusWord s).getLsbD j = false

/-- The machine at reset: the values of R35, and a source never initialised. The generator's seed and position, the empty
schedule and the empty response are the model's choices (log entries 5, 9, 15) and are not stated. -/
def Obligations.ResetValues : Prop :=
  (∀ i : RegIdx, getX i State.reset = 0) ∧ State.reset.busy = false ∧ State.reset.done = false ∧
  State.reset.err = false ∧ State.reset.prime = false ∧ State.reset.hzd = false ∧
  State.reset.errCode = none ∧ State.reset.mrIters = 0 ∧ State.reset.lastCmd = 0 ∧
  State.reset.roundsPassed = 0 ∧ State.reset.rng.state = .uninit ∧ statusWord State.reset = 0

/-- A hard reset, at any time: every piece of block state at its value of R35, a command in flight abandoned; the source,
its draws already consumed among them, is untouched (R240, R242). -/
def Obligations.HardResetClearsTheBlock : Prop :=
  ∀ (s : State) (rest : List Move), s.agenda = .hardReset :: rest →
    step s = .next { s with
      agenda := rest, x := #v[0, 0, 0, 0, 0, 0, 0, 0], busy := false, done := false, err := false,
      prime := false, hzd := false, errCode := none, mrIters := 0, lastCmd := 0, roundsPassed := 0 }

/-! ## The window (spec/20_memory.md) -/

/-- The address map of the operand window, for every width: word `k` of `x[i]` stands at
`0x1000 + i * (W / 8) + 4 * k` and nowhere else (R61). -/
def Obligations.OperandWindowMap : Prop :=
  ∀ (p : Config.Params) (i : RegIdx) (k off : Nat),
    targetAt p off = some (.operand i k) ↔ k < p.width / 32 ∧ off = 0x1000 + i * (p.width / 8) + 4 * k

/-- An access is admitted exactly when it is an aligned 32-bit one at a defined offset of the window (R61 to R63). -/
def Obligations.AccessAdmittedExactlyInTheWindow : Prop :=
  ∀ (p : Config.Params) (addr size : Nat),
    (accessTarget p addr size).isSome = true ↔
      size = 4 ∧ p.base ≤ addr ∧ (addr - p.base) % 4 = 0 ∧
        (addr - p.base ≤ 0x014 ∨ (0x1000 ≤ addr - p.base ∧ addr - p.base < 0x1000 + p.width))

/-- Any other access stops the run with the bus error, reads and writes alike (R62, R63). -/
def Obligations.InadmissibleAccessIsABusError : Prop :=
  ∀ (s : State) (rest : List Move) (addr size : Nat) (w : Word),
    size ≠ 4 ∨ addr < s.params.base ∨ (addr - s.params.base) % 4 ≠ 0 ∨
      (0x018 ≤ addr - s.params.base ∧ addr - s.params.base < 0x1000) ∨
      0x1000 + s.params.width ≤ addr - s.params.base →
    (s.agenda = .read addr size :: rest → step s = .fault .busError) ∧
    (s.agenda = .write addr size w :: rest → step s = .fault .busError)

/-- A read of word `k` of `x[i]` returns bits `32k+31 : 32k` as the register stands, at any time, and changes
nothing (R65). -/
def Obligations.OperandReadReturnsTheWord : Prop :=
  ∀ (s : State) (rest : List Move) (i : RegIdx) (k : Nat), k < s.params.words →
    s.agenda = .read (s.params.base + 0x1000 + i * (s.params.width / 8) + 4 * k) 4 :: rest →
    ∃ w : Word, step s = .next { s with agenda := rest, response := .data w } ∧
      w.toNat = getX i s / 2 ^ (32 * k) % 2 ^ 32

/-- No read has a side effect (R69). -/
def Obligations.ReadsHaveNoSideEffect : Prop :=
  ∀ (s t : State) (rest : List Move) (addr size : Nat), s.agenda = .read addr size :: rest →
    step s = .next t → ∃ w : Word, t = { s with agenda := rest, response := .data w }

/-- A write of word `k` of `x[i]`: while BUSY = 0, ERR or not, that word of that register becomes the value written and
every other bit of every register stays; while BUSY = 1 it is dropped with HZD (R66, R67). -/
def Obligations.OperandWriteReplacesOneWord : Prop :=
  ∀ (s : State) (rest : List Move) (i : RegIdx) (k : Nat) (v : Word), k < s.params.words →
    s.agenda = .write (s.params.base + 0x1000 + i * (s.params.width / 8) + 4 * k) 4 v :: rest →
    (s.busy = true → step s = .next { s with agenda := rest, response := .none, hzd := true }) ∧
    (s.busy = false →
      ∃ y : Nat, step s = .next { s with agenda := rest, response := .none, x := s.x.set i y } ∧
        ∀ b : Nat, y.testBit b =
          if 32 * k ≤ b ∧ b < 32 * k + 32 then v.getLsbD (b - 32 * k) else (getX i s).testBit b)

/-- `LoadReg(i, v)` on an idle block whose registers fit leaves `x[i] = v` and changes nothing else, for every
width (R76). The order of its writes, ascending, is the model's choice (log entry 26). -/
def Obligations.LoadRegLeavesTheValue : Prop :=
  ∀ (s : State) (i : RegIdx) (v : Nat), s.busy = false → OperandsFit s → v < 2 ^ s.params.width →
    runFor s.params.words (schedule (ldreg s.params i v) s) =
      .next { s with x := s.x.set i v, response := .none }

/-- A torn read (R68), with the values of the spec's example: at `W = 64`, the low word of `x[3]` read before the
completion and the high word after it make a value that is neither the old nor the new one. -/
def Obligations.TornReadCanHappen : Prop :=
  ∃ s t u : State, s.params.width = 64 ∧ s.busy = true ∧ getX 3 s = 0xFFFFFFFF00000001 ∧
    runFor 1 (schedule [.read (s.params.base + 0x1018) 4] s) = .next t ∧ t.response = .data 0x00000001 ∧
    runFor 2 (schedule [.engine, .read (s.params.base + 0x101C) 4] t) = .next u ∧
    u.response = .data 0x00000000 ∧ getX 3 u = 445

/-! ## The randomness source (spec/60_exceptions.md R214, R215) -/

/-- The lifecycle moves (R214): `init` from UNINIT makes the source READY with its seed, `clear` from READY makes it
CLEARED. R214 and R251 give the host no other such move; that the model refuses every other combination, and both while
BUSY, is its reading (DEDUCED, log entry 11). -/
def Obligations.LifecycleMoves : Prop :=
  ∀ (s : State) (rest : List Move) (seed : Nat),
    (s.agenda = .rngInit seed :: rest → s.busy = false → s.rng.state = .uninit →
      ∃ g : Source, step s = .next { s with agenda := rest, response := .none, rng := g } ∧
        g.state = .ready ∧ g.seed = seed) ∧
    (s.agenda = .rngClear :: rest → s.busy = false → s.rng.state = .ready →
      ∃ g : Source, step s = .next { s with agenda := rest, response := .none, rng := g } ∧
        g.state = .cleared) ∧
    (s.agenda = .rngInit seed :: rest → s.busy = true ∨ s.rng.state ≠ .uninit →
      ∃ r : Refusal, step s = .refused r) ∧
    (s.agenda = .rngClear :: rest → s.busy = true ∨ s.rng.state ≠ .ready →
      ∃ r : Refusal, step s = .refused r)

/-- A call of the host's own while READY and idle is answered within its range and advances the generator by one; the
block is untouched (R176, R212, R215). Which value of the range it is, is free. -/
def Obligations.HostCallAdvancesTheGenerator : Prop :=
  ∀ (s : State) (rest : List Move) (m : Nat), s.busy = false → s.rng.state = .ready →
    (s.agenda = .rngBits m :: rest →
      ∃ v : Nat, v < 2 ^ m ∧ step s = .next { s with
        agenda := rest, response := .answer v, rng := { s.rng with position := s.rng.position + 1 } }) ∧
    (0 < m → s.agenda = .rngBelow m :: rest →
      ∃ v : Nat, v < m ∧ step s = .next { s with
        agenda := rest, response := .answer v, rng := { s.rng with position := s.rng.position + 1 } })

/-- Only the host's own lifecycle moves change the source's state, and only along UNINIT, READY, CLEARED (R34,
R242). -/
def Obligations.OnlyLifecycleMovesChangeTheSourceState : Prop :=
  ∀ s t : State, step s = .next t → t.rng.state ≠ s.rng.state →
    (s.rng.state = .uninit ∧ t.rng.state = .ready ∧ ∃ seed rest, s.agenda = .rngInit seed :: rest) ∨
    (s.rng.state = .ready ∧ t.rng.state = .cleared ∧ ∃ rest, s.agenda = .rngClear :: rest)

/-! ## Rules of the whole machine -/

/-- The three invariants below hold at reset, for every value of the open parameters (R21, R25, R33, R35). -/
def Obligations.ResetMeetsTheInvariants : Prop :=
  FlagsSound State.reset ∧ OperandsFit State.reset ∧ RoundsSound State.reset ∧ RunOver State.reset

/-- Every step keeps the flag invariants of R25. -/
def Obligations.FlagsSoundKept : Prop :=
  ∀ s t : State, FlagsSound s → step s = .next t → FlagsSound t

/-- Every step keeps every register below `2^W`, so that nothing is ever truncated (R21), and no step changes the
parameters (R5). -/
def Obligations.OperandsFitKept : Prop :=
  ∀ s t : State, OperandsFit s → step s = .next t → OperandsFit t ∧ t.params = s.params

/-- Every step keeps the hidden round counter 0 while no command is in flight and never above MR_ITERS (R33, R138). -/
def Obligations.RoundsSoundKept : Prop :=
  ∀ s t : State, RoundsSound s → step s = .next t → RoundsSound t

/-- PRIME is "Written by nothing else" (R25): a step that changes it is the engine's and the command in flight an MRTEST, or
a hard reset, or an honoured soft reset. -/
def Obligations.OnlyMrtestAndResetChangePrime : Prop :=
  ∀ s t : State, step s = .next t → t.prime ≠ s.prime →
    (s.busy = true ∧ EnginesMove s ∧ ∃ ra : Field, decode s.lastCmd = .ok (.mrtest ra)) ∨
    (∃ rest, s.agenda = .hardReset :: rest) ∨
    (s.busy = false ∧ ∃ w rest, s.agenda = .write (s.params.base + 0x008) 4 w :: rest ∧ w.getLsbD 1 = true)

/-- LASTCMD is "written at acceptance (rule R26), cleared to 0 by any reset, changed by nothing else" (R29): a step that
changes it is one of these, and each of these does what R29 says. -/
def Obligations.OnlyAcceptanceAndResetChangeLastCmd : Prop :=
  ∀ s t : State, step s = .next t →
    (t.lastCmd = s.lastCmd ∨
      (s.busy = false ∧ s.err = false ∧
        ∃ rest, s.agenda = .write (s.params.base + 0x000) 4 t.lastCmd :: rest) ∨
      (t.lastCmd = 0 ∧ ∃ rest, s.agenda = .hardReset :: rest) ∨
      (t.lastCmd = 0 ∧ s.busy = false ∧
        ∃ w rest, s.agenda = .write (s.params.base + 0x008) 4 w :: rest ∧ w.getLsbD 1 = true)) ∧
    (∀ w rest, s.agenda = .write (s.params.base + 0x000) 4 w :: rest → s.busy = false → s.err = false →
      t.lastCmd = w) ∧
    (∀ rest, s.agenda = .hardReset :: rest → t.lastCmd = 0) ∧
    (∀ w rest, s.agenda = .write (s.params.base + 0x008) 4 w :: rest → s.busy = false →
      w.getLsbD 1 = true → t.lastCmd = 0)

/-- While a command is in flight and stays in flight, nothing it depends on changes: no operand register, not MR_ITERS,
not LASTCMD, no flag but HZD (R21, R67, R73). -/
def Obligations.CommandInFlightIsUndisturbed : Prop :=
  ∀ s t : State, s.busy = true → step s = .next t → t.busy = true →
    t.x = s.x ∧ t.mrIters = s.mrIters ∧ t.lastCmd = s.lastCmd ∧ t.done = s.done ∧ t.err = s.err ∧
    t.errCode = s.errCode ∧ t.prime = s.prime ∧ (s.hzd = true → t.hzd = true)

/-- "Hard reset is the only thing that can stop a running command" (R240): besides it, BUSY falls only by a completion (R32),
that is by the engine's turn or the source's answer or, with no move left, the engine's (log entry 7), and then DONE is 1. -/
def Obligations.OnlyCompletionAndHardResetEndACommand : Prop :=
  ∀ s t : State, s.busy = true → step s = .next t → t.busy = false →
    (EnginesMove s ∧ t.done = true) ∨ ∃ rest, s.agenda = .hardReset :: rest

/-- HZD is sticky: it falls only by an honoured `CTRL.CLRERR` or by a reset (R24, R25). -/
def Obligations.HazardFlagIsSticky : Prop :=
  ∀ s t : State, step s = .next t → s.hzd = true → t.hzd = false →
    (∃ rest, s.agenda = .hardReset :: rest) ∨
    (s.busy = false ∧ ∃ w rest, s.agenda = .write (s.params.base + 0x008) 4 w :: rest ∧
      (w.getLsbD 0 = true ∨ w.getLsbD 1 = true))

/-- Errors do not nest (R208). An error is raised only by a command's completion: a step that takes ERR from 0 to 1 is the
engine's, with a command in flight that it ends. No command is accepted while ERR = 1: a `CMD` write then changes neither
BUSY, LASTCMD, ERR nor ERRCODE and is recorded in HZD. So from the error state (ERR = 1, BUSY = 0) a step starts no command,
and either ERR, ERRCODE and LASTCMD stay as they are or the error is cleared. -/
def Obligations.ErrorsDoNotNest : Prop :=
  ∀ s t : State, step s = .next t →
    (s.err = false → t.err = true →
      s.busy = true ∧ EnginesMove s ∧ t.busy = false ∧ t.done = true ∧ t.lastCmd = s.lastCmd ∧
        t.errCode ≠ none) ∧
    (∀ w rest, s.err = true → s.agenda = .write (s.params.base + 0x000) 4 w :: rest →
      t.busy = s.busy ∧ t.lastCmd = s.lastCmd ∧ t.err = true ∧ t.errCode = s.errCode ∧ t.hzd = true) ∧
    (s.err = true → s.busy = false →
      t.busy = false ∧
      ((t.err = true ∧ t.errCode = s.errCode ∧ t.lastCmd = s.lastCmd) ∨ (t.err = false ∧ t.errCode = none)))

/-- What stops a run is a move of the host's that the spec gives it no right to, or a source that answers unasked: an
access the window does not admit is the bus error, and refused are a lifecycle move or a call on the source while BUSY or
in the wrong lifecycle state, `uniform_below(0)`, and an answer no draw waits for. No command stops it (R62, R63, R214,
R251). That the first is a fault and the others refusals is the model's choice: log entries 10, 11, 12, 16. -/
def Obligations.OnlyInadmissibleMovesStopTheRun : Prop :=
  ∀ s : State, (∀ t : State, step s ≠ .next t) →
    ∃ m rest, s.agenda = m :: rest ∧
      ((step s = .fault .busError ∧ ∃ addr size : Nat, accessTarget s.params addr size = none ∧
          (m = .read addr size ∨ ∃ w : Word, m = .write addr size w)) ∨
       ((∃ r : Refusal, step s = .refused r) ∧
          (((∃ seed, m = .rngInit seed) ∧ (s.busy = true ∨ s.rng.state ≠ .uninit)) ∨
           (m = .rngClear ∧ (s.busy = true ∨ s.rng.state ≠ .ready)) ∨
           (∃ b, m = .rngBelow b ∧ (b = 0 ∨ s.busy = true ∨ s.rng.state ≠ .ready)) ∨
           ((∃ n, m = .rngBits n) ∧ (s.busy = true ∨ s.rng.state ≠ .ready)) ∨
           ((∃ d, m = .answer d) ∧ drawPending s = none))))
end

