-- ==== Sys2Proof/Laws/State.lean ====
section
/-! SUPPORT. What each named update does to each field of State, true by unfolding it once, and reading a register
after writing one. -/

namespace Sys2Proof.Machine

@[simp] theorem setX_params (i : RegIdx) (v : Nat) (s : State) : (setX i v s).params = s.params := rfl
@[simp] theorem setX_x (i : RegIdx) (v : Nat) (s : State) : (setX i v s).x = s.x.set i v := rfl
@[simp] theorem setX_busy (i : RegIdx) (v : Nat) (s : State) : (setX i v s).busy = s.busy := rfl
@[simp] theorem setX_done (i : RegIdx) (v : Nat) (s : State) : (setX i v s).done = s.done := rfl
@[simp] theorem setX_err (i : RegIdx) (v : Nat) (s : State) : (setX i v s).err = s.err := rfl
@[simp] theorem setX_prime (i : RegIdx) (v : Nat) (s : State) : (setX i v s).prime = s.prime := rfl
@[simp] theorem setX_hzd (i : RegIdx) (v : Nat) (s : State) : (setX i v s).hzd = s.hzd := rfl
@[simp] theorem setX_errCode (i : RegIdx) (v : Nat) (s : State) : (setX i v s).errCode = s.errCode := rfl
@[simp] theorem setX_mrIters (i : RegIdx) (v : Nat) (s : State) : (setX i v s).mrIters = s.mrIters := rfl
@[simp] theorem setX_lastCmd (i : RegIdx) (v : Nat) (s : State) : (setX i v s).lastCmd = s.lastCmd := rfl
@[simp] theorem setX_roundsPassed (i : RegIdx) (v : Nat) (s : State) : (setX i v s).roundsPassed = s.roundsPassed := rfl
@[simp] theorem setX_rng (i : RegIdx) (v : Nat) (s : State) : (setX i v s).rng = s.rng := rfl
@[simp] theorem setX_agenda (i : RegIdx) (v : Nat) (s : State) : (setX i v s).agenda = s.agenda := rfl
@[simp] theorem setX_response (i : RegIdx) (v : Nat) (s : State) : (setX i v s).response = s.response := rfl

@[simp] theorem accept_params (w : Word) (s : State) : (accept w s).params = s.params := rfl
@[simp] theorem accept_x (w : Word) (s : State) : (accept w s).x = s.x := rfl
@[simp] theorem accept_busy (w : Word) (s : State) : (accept w s).busy = true := rfl
@[simp] theorem accept_done (w : Word) (s : State) : (accept w s).done = false := rfl
@[simp] theorem accept_err (w : Word) (s : State) : (accept w s).err = s.err := rfl
@[simp] theorem accept_prime (w : Word) (s : State) : (accept w s).prime = s.prime := rfl
@[simp] theorem accept_hzd (w : Word) (s : State) : (accept w s).hzd = s.hzd := rfl
@[simp] theorem accept_errCode (w : Word) (s : State) : (accept w s).errCode = s.errCode := rfl
@[simp] theorem accept_mrIters (w : Word) (s : State) : (accept w s).mrIters = s.mrIters := rfl
@[simp] theorem accept_lastCmd (w : Word) (s : State) : (accept w s).lastCmd = w := rfl
@[simp] theorem accept_roundsPassed (w : Word) (s : State) : (accept w s).roundsPassed = 0 := rfl
@[simp] theorem accept_rng (w : Word) (s : State) : (accept w s).rng = s.rng := rfl
@[simp] theorem accept_agenda (w : Word) (s : State) : (accept w s).agenda = s.agenda := rfl
@[simp] theorem accept_response (w : Word) (s : State) : (accept w s).response = s.response := rfl

@[simp] theorem succeed_params (s : State) : (succeed s).params = s.params := rfl
@[simp] theorem succeed_x (s : State) : (succeed s).x = s.x := rfl
@[simp] theorem succeed_busy (s : State) : (succeed s).busy = false := rfl
@[simp] theorem succeed_done (s : State) : (succeed s).done = true := rfl
@[simp] theorem succeed_err (s : State) : (succeed s).err = s.err := rfl
@[simp] theorem succeed_prime (s : State) : (succeed s).prime = s.prime := rfl
@[simp] theorem succeed_hzd (s : State) : (succeed s).hzd = s.hzd := rfl
@[simp] theorem succeed_errCode (s : State) : (succeed s).errCode = s.errCode := rfl
@[simp] theorem succeed_mrIters (s : State) : (succeed s).mrIters = s.mrIters := rfl
@[simp] theorem succeed_lastCmd (s : State) : (succeed s).lastCmd = s.lastCmd := rfl
@[simp] theorem succeed_roundsPassed (s : State) : (succeed s).roundsPassed = 0 := rfl
@[simp] theorem succeed_rng (s : State) : (succeed s).rng = s.rng := rfl
@[simp] theorem succeed_agenda (s : State) : (succeed s).agenda = s.agenda := rfl
@[simp] theorem succeed_response (s : State) : (succeed s).response = s.response := rfl

@[simp] theorem raiseError_params (e : Error) (s : State) : (raiseError e s).params = s.params := rfl
@[simp] theorem raiseError_x (e : Error) (s : State) : (raiseError e s).x = s.x := rfl
@[simp] theorem raiseError_busy (e : Error) (s : State) : (raiseError e s).busy = false := rfl
@[simp] theorem raiseError_done (e : Error) (s : State) : (raiseError e s).done = true := rfl
@[simp] theorem raiseError_err (e : Error) (s : State) : (raiseError e s).err = true := rfl
@[simp] theorem raiseError_prime (e : Error) (s : State) : (raiseError e s).prime = s.prime := rfl
@[simp] theorem raiseError_hzd (e : Error) (s : State) : (raiseError e s).hzd = s.hzd := rfl
@[simp] theorem raiseError_errCode (e : Error) (s : State) : (raiseError e s).errCode = some e := rfl
@[simp] theorem raiseError_mrIters (e : Error) (s : State) : (raiseError e s).mrIters = s.mrIters := rfl
@[simp] theorem raiseError_lastCmd (e : Error) (s : State) : (raiseError e s).lastCmd = s.lastCmd := rfl
@[simp] theorem raiseError_roundsPassed (e : Error) (s : State) : (raiseError e s).roundsPassed = 0 := rfl
@[simp] theorem raiseError_rng (e : Error) (s : State) : (raiseError e s).rng = s.rng := rfl
@[simp] theorem raiseError_agenda (e : Error) (s : State) : (raiseError e s).agenda = s.agenda := rfl
@[simp] theorem raiseError_response (e : Error) (s : State) : (raiseError e s).response = s.response := rfl

@[simp] theorem clearError_params (s : State) : (clearError s).params = s.params := rfl
@[simp] theorem clearError_x (s : State) : (clearError s).x = s.x := rfl
@[simp] theorem clearError_busy (s : State) : (clearError s).busy = s.busy := rfl
@[simp] theorem clearError_done (s : State) : (clearError s).done = false := rfl
@[simp] theorem clearError_err (s : State) : (clearError s).err = false := rfl
@[simp] theorem clearError_prime (s : State) : (clearError s).prime = s.prime := rfl
@[simp] theorem clearError_hzd (s : State) : (clearError s).hzd = false := rfl
@[simp] theorem clearError_errCode (s : State) : (clearError s).errCode = none := rfl
@[simp] theorem clearError_mrIters (s : State) : (clearError s).mrIters = s.mrIters := rfl
@[simp] theorem clearError_lastCmd (s : State) : (clearError s).lastCmd = s.lastCmd := rfl
@[simp] theorem clearError_roundsPassed (s : State) : (clearError s).roundsPassed = s.roundsPassed := rfl
@[simp] theorem clearError_rng (s : State) : (clearError s).rng = s.rng := rfl
@[simp] theorem clearError_agenda (s : State) : (clearError s).agenda = s.agenda := rfl
@[simp] theorem clearError_response (s : State) : (clearError s).response = s.response := rfl

@[simp] theorem dropWrite_params (s : State) : (dropWrite s).params = s.params := rfl
@[simp] theorem dropWrite_x (s : State) : (dropWrite s).x = s.x := rfl
@[simp] theorem dropWrite_busy (s : State) : (dropWrite s).busy = s.busy := rfl
@[simp] theorem dropWrite_done (s : State) : (dropWrite s).done = s.done := rfl
@[simp] theorem dropWrite_err (s : State) : (dropWrite s).err = s.err := rfl
@[simp] theorem dropWrite_prime (s : State) : (dropWrite s).prime = s.prime := rfl
@[simp] theorem dropWrite_hzd (s : State) : (dropWrite s).hzd = true := rfl
@[simp] theorem dropWrite_errCode (s : State) : (dropWrite s).errCode = s.errCode := rfl
@[simp] theorem dropWrite_mrIters (s : State) : (dropWrite s).mrIters = s.mrIters := rfl
@[simp] theorem dropWrite_lastCmd (s : State) : (dropWrite s).lastCmd = s.lastCmd := rfl
@[simp] theorem dropWrite_roundsPassed (s : State) : (dropWrite s).roundsPassed = s.roundsPassed := rfl
@[simp] theorem dropWrite_rng (s : State) : (dropWrite s).rng = s.rng := rfl
@[simp] theorem dropWrite_agenda (s : State) : (dropWrite s).agenda = s.agenda := rfl
@[simp] theorem dropWrite_response (s : State) : (dropWrite s).response = s.response := rfl

@[simp] theorem blockReset_params (s : State) : (blockReset s).params = s.params := rfl
@[simp] theorem blockReset_x (s : State) : (blockReset s).x = #v[0, 0, 0, 0, 0, 0, 0, 0] := rfl
@[simp] theorem blockReset_busy (s : State) : (blockReset s).busy = false := rfl
@[simp] theorem blockReset_done (s : State) : (blockReset s).done = false := rfl
@[simp] theorem blockReset_err (s : State) : (blockReset s).err = false := rfl
@[simp] theorem blockReset_prime (s : State) : (blockReset s).prime = false := rfl
@[simp] theorem blockReset_hzd (s : State) : (blockReset s).hzd = false := rfl
@[simp] theorem blockReset_errCode (s : State) : (blockReset s).errCode = none := rfl
@[simp] theorem blockReset_mrIters (s : State) : (blockReset s).mrIters = 0 := rfl
@[simp] theorem blockReset_lastCmd (s : State) : (blockReset s).lastCmd = 0 := rfl
@[simp] theorem blockReset_roundsPassed (s : State) : (blockReset s).roundsPassed = 0 := rfl
@[simp] theorem blockReset_rng (s : State) : (blockReset s).rng = s.rng := rfl
@[simp] theorem blockReset_agenda (s : State) : (blockReset s).agenda = s.agenda := rfl
@[simp] theorem blockReset_response (s : State) : (blockReset s).response = s.response := rfl

@[simp] theorem respond_params (r : Response) (s : State) : (respond r s).params = s.params := rfl
@[simp] theorem respond_x (r : Response) (s : State) : (respond r s).x = s.x := rfl
@[simp] theorem respond_busy (r : Response) (s : State) : (respond r s).busy = s.busy := rfl
@[simp] theorem respond_done (r : Response) (s : State) : (respond r s).done = s.done := rfl
@[simp] theorem respond_err (r : Response) (s : State) : (respond r s).err = s.err := rfl
@[simp] theorem respond_prime (r : Response) (s : State) : (respond r s).prime = s.prime := rfl
@[simp] theorem respond_hzd (r : Response) (s : State) : (respond r s).hzd = s.hzd := rfl
@[simp] theorem respond_errCode (r : Response) (s : State) : (respond r s).errCode = s.errCode := rfl
@[simp] theorem respond_mrIters (r : Response) (s : State) : (respond r s).mrIters = s.mrIters := rfl
@[simp] theorem respond_lastCmd (r : Response) (s : State) : (respond r s).lastCmd = s.lastCmd := rfl
@[simp] theorem respond_roundsPassed (r : Response) (s : State) : (respond r s).roundsPassed = s.roundsPassed := rfl
@[simp] theorem respond_rng (r : Response) (s : State) : (respond r s).rng = s.rng := rfl
@[simp] theorem respond_agenda (r : Response) (s : State) : (respond r s).agenda = s.agenda := rfl
@[simp] theorem respond_response (r : Response) (s : State) : (respond r s).response = r := rfl

@[simp] theorem setPrime_params (b : Bool) (s : State) : (setPrime b s).params = s.params := rfl
@[simp] theorem setPrime_x (b : Bool) (s : State) : (setPrime b s).x = s.x := rfl
@[simp] theorem setPrime_busy (b : Bool) (s : State) : (setPrime b s).busy = s.busy := rfl
@[simp] theorem setPrime_done (b : Bool) (s : State) : (setPrime b s).done = s.done := rfl
@[simp] theorem setPrime_err (b : Bool) (s : State) : (setPrime b s).err = s.err := rfl
@[simp] theorem setPrime_prime (b : Bool) (s : State) : (setPrime b s).prime = b := rfl
@[simp] theorem setPrime_hzd (b : Bool) (s : State) : (setPrime b s).hzd = s.hzd := rfl
@[simp] theorem setPrime_errCode (b : Bool) (s : State) : (setPrime b s).errCode = s.errCode := rfl
@[simp] theorem setPrime_mrIters (b : Bool) (s : State) : (setPrime b s).mrIters = s.mrIters := rfl
@[simp] theorem setPrime_lastCmd (b : Bool) (s : State) : (setPrime b s).lastCmd = s.lastCmd := rfl
@[simp] theorem setPrime_roundsPassed (b : Bool) (s : State) : (setPrime b s).roundsPassed = s.roundsPassed := rfl
@[simp] theorem setPrime_rng (b : Bool) (s : State) : (setPrime b s).rng = s.rng := rfl
@[simp] theorem setPrime_agenda (b : Bool) (s : State) : (setPrime b s).agenda = s.agenda := rfl
@[simp] theorem setPrime_response (b : Bool) (s : State) : (setPrime b s).response = s.response := rfl

@[simp] theorem getX_setX_self (i : RegIdx) (v : Nat) (s : State) : getX i (setX i v s) = v := by
  simp [getX]

@[simp] theorem getX_setX_ne {i j : RegIdx} (h : i ≠ j) (v : Nat) (s : State) :
    getX j (setX i v s) = getX j s := by
  have : (i : Nat) ≠ j := fun e => h (Fin.ext e)
  simp [getX, Vector.getElem_set_ne, this]

/-- `getX` looks at the registers only. -/
theorem getX_congr {s t : State} (h : s.x = t.x) (i : RegIdx) : getX i s = getX i t := by
  simp [getX, h]

@[simp] theorem getX_accept (i : RegIdx) (w : Word) (s : State) : getX i (accept w s) = getX i s := rfl
@[simp] theorem getX_succeed (i : RegIdx) (s : State) : getX i (succeed s) = getX i s := rfl
@[simp] theorem getX_raiseError (i : RegIdx) (e : Error) (s : State) :
    getX i (raiseError e s) = getX i s := rfl
@[simp] theorem getX_clearError (i : RegIdx) (s : State) : getX i (clearError s) = getX i s := rfl
@[simp] theorem getX_dropWrite (i : RegIdx) (s : State) : getX i (dropWrite s) = getX i s := rfl
@[simp] theorem getX_respond (i : RegIdx) (r : Response) (s : State) :
    getX i (respond r s) = getX i s := rfl
@[simp] theorem getX_setPrime (i : RegIdx) (b : Bool) (s : State) : getX i (setPrime b s) = getX i s := rfl

@[simp] theorem getX_blockReset (i : RegIdx) (s : State) : getX i (blockReset s) = 0 := by
  fin_cases i <;> rfl

/-- Bit 0 of the word `STATUS` reads as is BUSY, the bit `wait` tests. -/
@[simp] theorem statusWord_busy (s : State) : (statusWord s).getLsbD 0 = s.busy := by
  unfold statusWord
  rw [BitVec.getLsbD_append]
  cases s.busy <;> rfl

end Sys2Proof.Machine
end

