-- ==== Sys2Proof/Laws/Operands.lean ====
section
/-! SUPPORT. Register fields and register indices, and everything the form MODMUL and MODEXP share can do. -/

namespace Sys2Proof.Machine

@[simp] theorem regIndex_fieldOf (i : RegIdx) : regIndex (fieldOf i) = some i := by
  revert i; decide

/-- A field names the register `i` exactly when it is the field of `i`. -/
theorem regIndex_eq_some_iff (f : Field) (i : RegIdx) : regIndex f = some i ↔ f = fieldOf i := by
  revert f i; decide

/-- A legal field is the field of some register (spec/30_encoding.md R91). -/
theorem exists_fieldOf_of_legal {f : Field} (h : fieldLegal f = true) : ∃ i : RegIdx, f = fieldOf i := by
  revert f; decide

/-- The field of a register is legal. -/
@[simp] theorem fieldLegal_fieldOf (i : RegIdx) : fieldLegal (fieldOf i) = true := by
  revert i; decide

/-- Everything `modulusCommand` can do: an error and nothing else, or one register written. -/
theorem modulusCommand_cases (f : Nat → Nat → Nat → Nat) (rd ra rb rm : Field) (s : State) :
    (∃ e : Error, modulusCommand f rd ra rb rm s = raiseError e s) ∨
    ∃ d a b m : RegIdx, getX m s ≠ 0 ∧
      modulusCommand f rd ra rb rm s = succeed (setX d (f (getX a s) (getX b s) (getX m s)) s) := by
  unfold modulusCommand
  split
  · split
    · exact .inl ⟨_, rfl⟩
    · rename_i d a b m _ _ _ _ h
      exact .inr ⟨d, a, b, m, h, rfl⟩
  · exact .inl ⟨_, rfl⟩

end Sys2Proof.Machine
end

