-- ==== Sys2Proof/Laws/Bus.lean ====
section
/-! SUPPORT. The window: where its registers stand, and everything a host access can do, said once. -/

namespace Sys2Proof.Machine

theorem words_pos (p : Config.Params) : 0 < p.words := by simp [Config.Params.words]

/-- An admitted access is a 32-bit one inside the window. -/
theorem accessTarget_eq_some {p : Config.Params} {addr size : Nat} {t : Target}
    (h : accessTarget p addr size = some t) :
    size = 4 ∧ p.base ≤ addr ∧ targetAt p (addr - p.base) = some t := by
  unfold accessTarget at h
  split at h
  · rename_i hc; exact ⟨hc.1, hc.2, h⟩
  · cases h

/-- A 32-bit access at an offset from `BASE`. -/
theorem accessTarget_base_add (p : Config.Params) (off : Nat) :
    accessTarget p (p.base + off) 4 = targetAt p off := by
  simp [accessTarget]

/-- Where each register of the window can stand (spec/20_memory.md R61). -/
theorem targetAt_eq_some {p : Config.Params} {off : Nat} {t : Target} (h : targetAt p off = some t) :
    (off = 0x000 ∧ t = .cmd) ∨ (off = 0x004 ∧ t = .status) ∨ (off = 0x008 ∧ t = .ctrl) ∨
    (off = 0x00C ∧ t = .mrIters) ∨ (off = 0x010 ∧ t = .paramW) ∨ (off = 0x014 ∧ t = .lastCmd) ∨
    ∃ (i : RegIdx) (k : Nat), t = .operand i k ∧ k < p.words ∧ off = operandOffset p i k := by
  unfold targetAt at h
  repeat' split at h
  all_goals first
    | (simp at h; done)
    | (obtain rfl := Option.some.inj h; simp_all; done)
    | skip
  obtain rfl := Option.some.inj h
  refine .inr (.inr (.inr (.inr (.inr (.inr ⟨_, _, rfl, ?_, ?_⟩)))))
  · have := Nat.mod_lt (off - 0x1000) (Nat.mul_pos four_pos (words_pos p))
    omega
  · simp only [operandOffset]
    have h1 := Nat.div_add_mod (off - 0x1000) (4 * p.words)
    have h2 : (off - 0x1000) % (4 * p.words) % 4 = (off - 0x1000) % 4 := Nat.mod_mod_of_dvd _ ⟨_, rfl⟩
    have h3 := Nat.mul_comm (4 * p.words) ((off - 0x1000) / (4 * p.words))
    omega

/-- Word `k` of `x[i]` stands where R61 puts it. -/
theorem targetAt_operandOffset (p : Config.Params) (i : RegIdx) {k : Nat} (hk : k < p.words) :
    targetAt p (operandOffset p i k) = some (.operand i k) := by
  have h1 : operandOffset p i k - 0x1000 = 4 * k + 4 * p.words * i := by
    simp only [operandOffset]; rw [Nat.mul_comm (i : Nat)]; omega
  have hd : (4 * k + 4 * p.words * i) / (4 * p.words) = i := by
    rw [Nat.add_mul_div_left _ _ (by omega), Nat.div_eq_of_lt (by omega)]; omega
  have hm : (4 * k + 4 * p.words * i) % (4 * p.words) = 4 * k := by
    rw [Nat.add_mul_mod_self_left, Nat.mod_eq_of_lt (by omega)]
  have h4 : operandOffset p i k % 4 = 0 := by
    simp only [operandOffset]
    have : (i : Nat) * (4 * p.words) = 4 * (i * p.words) := by ring
    omega
  have hge : 0x1000 ≤ operandOffset p i k := by simp only [operandOffset]; omega
  have hlt : (operandOffset p i k - 0x1000) / (4 * p.words) < 8 := by rw [h1, hd]; exact i.isLt
  have hq : (operandOffset p i k - 0x1000) % (4 * p.words) / 4 = k := by rw [h1, hm]; omega
  have hi : (⟨(operandOffset p i k - 0x1000) / (4 * p.words), hlt⟩ : RegIdx) = i :=
    Fin.ext (by rw [← hd, ← h1])
  have at_offset (off : Nat) (g4 : off % 4 = 0) (gge : 0x1000 ≤ off)
      (glt : (off - 0x1000) / (4 * p.words) < 8) :
      targetAt p off = some (.operand ⟨_, glt⟩ ((off - 0x1000) % (4 * p.words) / 4)) := by
    unfold targetAt
    rw [if_neg (by omega), if_neg (by omega), if_neg (by omega), if_neg (by omega), if_neg (by omega),
      if_neg (by omega), if_neg (by omega), if_pos gge, dif_pos glt]
  rw [at_offset _ h4 hge hlt, hi, hq]

/-- Bit by bit, what replacing a word of a register leaves (R66). -/
theorem replaceWord_testBit (v k : Nat) (w : Word) (b : Nat) :
    (replaceWord v k w).testBit b =
      if 32 * k ≤ b ∧ b < 32 * k + 32 then w.getLsbD (b - 32 * k) else v.testBit b := by
  have e : replaceWord v k w =
      2 ^ (32 * (k + 1)) * (v / 2 ^ (32 * (k + 1))) + (2 ^ (32 * k) * w.toNat + v % 2 ^ (32 * k)) := by
    simp only [replaceWord]; ring
  have hlo : v % 2 ^ (32 * k) < 2 ^ (32 * k) := Nat.mod_lt _ (by positivity)
  have hlt : 2 ^ (32 * k) * w.toNat + v % 2 ^ (32 * k) < 2 ^ (32 * (k + 1)) := by
    have hp : (2 : Nat) ^ (32 * (k + 1)) = 2 ^ (32 * k) * 2 ^ 32 := by rw [← pow_add]; congr 1
    have := Nat.mul_le_mul_left (2 ^ (32 * k)) (show w.toNat + 1 ≤ 2 ^ 32 from w.isLt)
    rw [hp]
    rw [Nat.mul_add] at this
    omega
  rw [e, Nat.testBit_two_pow_mul_add _ hlt, Nat.testBit_two_pow_mul_add _ hlo, Nat.testBit_mod_two_pow,
    Nat.testBit_div_two_pow]
  by_cases h1 : b < 32 * (k + 1)
  · by_cases h2 : b < 32 * k
    · simp [h1, h2]
    · simp [h1, h2, BitVec.getLsbD]; omega
  · simp [h1]; rw [if_neg (by omega)]; congr 1; omega

/-- Everything a write to the window can do: nothing, drop, accept, clear, reset, or store. -/
theorem writeTarget_cases (t : Target) (w : Word) (s : State) :
    writeTarget t w s = s ∨ writeTarget t w s = dropWrite s ∨
    (t = .cmd ∧ s.busy = false ∧ s.err = false ∧ writeTarget t w s = accept w s) ∨
    (t = .ctrl ∧ s.busy = false ∧ w.getLsbD 1 = true ∧ writeTarget t w s = blockReset s) ∨
    (t = .ctrl ∧ s.busy = false ∧ w.getLsbD 0 = true ∧ writeTarget t w s = clearError s) ∨
    (t = .mrIters ∧ s.busy = false ∧ writeTarget t w s = { s with mrIters := w }) ∨
    (∃ i k, t = .operand i k ∧ s.busy = false ∧
      writeTarget t w s = setX i (replaceWord (getX i s) k w) s) := by
  cases t <;> simp only [writeTarget, writeCmd, writeCtrl, storeIdle]
  all_goals repeat' split
  all_goals simp_all

end Sys2Proof.Machine
end

