-- ==== Sys2Proof/Laws/Decode.lean ====
section
/-! SUPPORT. Format C taken apart and put together again, and what a legal register field is. -/

namespace Sys2Proof

/-- A field is legal exactly when its bit 3 is 0 (spec/30_encoding.md R91). -/
theorem fieldLegal_iff_bit3 (f : Field) : fieldLegal f = true ↔ f.getLsbD 3 = false := by
  revert f; decide

/-- Every field of `formatC` is found again where R91 puts it. -/
theorem formatC_fields (o : BitVec 8) (d a b m : Field) :
    opcodeOf (formatC o d a b m) = o ∧ rdOf (formatC o d a b m) = d ∧ raOf (formatC o d a b m) = a ∧
      rbOf (formatC o d a b m) = b ∧ rmOf (formatC o d a b m) = m ∧ zeroOf (formatC o d a b m) = 0 := by
  simp only [opcodeOf, rdOf, raOf, rbOf, rmOf, zeroOf, formatC]
  refine ⟨?_, ?_, ?_, ?_, ?_, ?_⟩ <;>
  · apply BitVec.eq_of_getLsbD_eq
    intro i hi
    simp only [BitVec.getLsbD_extractLsb', BitVec.getLsbD_append]
    interval_cases i <;> simp

@[simp] theorem opcodeOf_formatC (o : BitVec 8) (d a b m : Field) : opcodeOf (formatC o d a b m) = o :=
  (formatC_fields o d a b m).1
@[simp] theorem rdOf_formatC (o : BitVec 8) (d a b m : Field) : rdOf (formatC o d a b m) = d :=
  (formatC_fields o d a b m).2.1
@[simp] theorem raOf_formatC (o : BitVec 8) (d a b m : Field) : raOf (formatC o d a b m) = a :=
  (formatC_fields o d a b m).2.2.1
@[simp] theorem rbOf_formatC (o : BitVec 8) (d a b m : Field) : rbOf (formatC o d a b m) = b :=
  (formatC_fields o d a b m).2.2.2.1
@[simp] theorem rmOf_formatC (o : BitVec 8) (d a b m : Field) : rmOf (formatC o d a b m) = m :=
  (formatC_fields o d a b m).2.2.2.2.1
@[simp] theorem zeroOf_formatC (o : BitVec 8) (d a b m : Field) : zeroOf (formatC o d a b m) = 0 :=
  (formatC_fields o d a b m).2.2.2.2.2

/-- A word whose `zero` field is 0 is its other five fields put together. -/
theorem formatC_of_fields (c : Word) (h : zeroOf c = 0) :
    formatC (opcodeOf c) (rdOf c) (raOf c) (rbOf c) (rmOf c) = c := by
  have low : ∀ i, i < 8 → c.getLsbD i = false := by
    intro i hi
    have := congrArg (fun v => v.getLsbD i) h
    simpa [zeroOf, BitVec.getLsbD_extractLsb', hi] using this
  apply BitVec.eq_of_getLsbD_eq
  intro i hi
  simp only [opcodeOf, rdOf, raOf, rbOf, rmOf, formatC, BitVec.getLsbD_append,
    BitVec.getLsbD_extractLsb']
  interval_cases i <;> simp [-BitVec.getLsbD_eq_getElem, low]

end Sys2Proof
end

