-- ==== Sys2Proof/Laws/Engine.lean ====
section
/-! SUPPORT. Everything the randomness source, the rounds of MRTEST and a completion can do, said once. -/

namespace Sys2Proof.Machine

/-- `g'` is `g` after some more answers: same lifecycle state, same seed, a position no smaller. -/
def Source.After (g g' : Source) : Prop :=
  g'.state = g.state ∧ g'.seed = g.seed ∧ g.position ≤ g'.position

theorem Source.After.refl (g : Source) : g.After g := ⟨rfl, rfl, le_refl _⟩

theorem Source.After.trans {g g' g'' : Source} (h : g.After g') (h' : g'.After g'') : g.After g'' :=
  ⟨h'.1.trans h.1, h'.2.1.trans h.2.1, h.2.2.trans h'.2.2⟩

theorem Source.after_advance (g : Source) : g.After g.advance := ⟨rfl, rfl, Nat.le_succ _⟩

@[simp] theorem Source.isReady_iff (g : Source) : g.isReady = true ↔ g.state = .ready := by
  simp [Source.isReady]

/-- A transaction leaves the source as it was, or one answer later (spec/60_exceptions.md R213). -/
theorem rndBelow_after (d bound : Nat) (g : Source) : g.After (rndBelow d bound g).2 := by
  unfold rndBelow
  split
  · exact g.after_advance
  · exact .refl g

theorem drawWitness_snd (d n : Nat) (g : Source) : (drawWitness d n g).2 = (rndBelow d (n - 3) g).2 := by
  unfold drawWitness
  split <;> simp_all

theorem mrTrial_snd (n d : Nat) (g : Source) : (mrTrial n d g).2 = (rndBelow d (n - 3) g).2 := by
  rw [← drawWitness_snd]
  unfold mrTrial
  split
  · simp_all
  · split <;> simp_all

/-- One round consumes at most one answer. -/
theorem mrTrial_after (n d : Nat) (g : Source) : g.After (mrTrial n d g).2 := by
  rw [mrTrial_snd]; exact rndBelow_after d _ g

/-- One round with a source that is not READY. -/
theorem mrTrial_not_ready {n d : Nat} {g : Source} (h : g.state ≠ .ready) :
    mrTrial n d g = (.failed .rngNotReady, g) := by
  simp [mrTrial, drawWitness, rndBelow, h]

/-- One round with a READY source and an answer out of range. -/
theorem mrTrial_out_of_range {n d : Nat} {g : Source} (h : g.state = .ready) (hd : n - 3 ≤ d) :
    mrTrial n d g = (.failed .rngRange, g.advance) := by
  simp [mrTrial, drawWitness, rndBelow, h, Nat.not_lt.mpr hd]

/-- One round with a READY source and an answer in range: the trial decides. -/
theorem mrTrial_in_range {n d : Nat} {g : Source} (h : g.state = .ready) (hd : d < n - 3) :
    mrTrial n d g =
      (match mrRound n (decompose n).1 (decompose n).2 (2 + d) with
        | .pass => .prime
        | .composite => .composite, g.advance) := by
  simp only [mrTrial, drawWitness, rndBelow, (Source.isReady_iff g).mpr h, if_true, hd]
  cases mrRound n (decompose n).1 (decompose n).2 (2 + d) <;> rfl

/-- The rounds only ever move the source forward. -/
theorem mrRounds_after (n k : Nat) (g : Source) : g.After (mrRounds n k g).2 := by
  induction k generalizing g with
  | zero => exact .refl g
  | succ k ih =>
    have ht := mrTrial_after n (g.freeAnswer (n - 3)) g
    unfold mrRounds
    split
    · rename_i g' heq
      rw [heq] at ht
      exact ht.trans (ih g')
    · exact ht

/-- The three ends of an MRTEST. -/
theorem mrFinish_cases (r : Verdict × Source) (s : State) :
    (∃ b : Bool, mrFinish r s = succeed (setPrime b { s with rng := r.2 })) ∨
    ∃ e : Error, mrFinish r s = raiseError e { s with rng := r.2 } := by
  unfold mrFinish
  split
  · exact .inl ⟨_, rfl⟩
  · exact .inl ⟨_, rfl⟩
  · exact .inr ⟨_, rfl⟩

/-- Everything a command's completion can do: it always answers a next state, which is an error taken, one register
written with success, or (MRTEST only) PRIME written with success; the source may be some answers later. -/
theorem exec_cases (i : Instr) (s : State) :
    ∃ t : State, exec i s = .next t ∧
      ((∃ e g, s.rng.After g ∧ t = raiseError e { s with rng := g }) ∨
       (∃ d v, t = succeed (setX d v s)) ∨
       (∃ ra b g, i = .mrtest ra ∧ s.rng.After g ∧ t = succeed (setPrime b { s with rng := g }))) := by
  have four (f : Nat → Nat → Nat → Nat) (rd ra rb rm : Field) :
      (∃ e g, s.rng.After g ∧ modulusCommand f rd ra rb rm s = raiseError e { s with rng := g }) ∨
      (∃ d v, modulusCommand f rd ra rb rm s = succeed (setX d v s)) := by
    rcases modulusCommand_cases f rd ra rb rm s with ⟨e, h⟩ | ⟨d, a, b, m, -, h⟩
    · exact .inl ⟨e, s.rng, .refl _, h⟩
    · exact .inr ⟨d, _, h⟩
  cases i with
  | modmul rd ra rb rm =>
    exact ⟨_, rfl, (four modmul rd ra rb rm).elim .inl fun h => .inr (.inl h)⟩
  | modexp rd ra rb rm =>
    exact ⟨_, rfl, (four powMod rd ra rb rm).elim .inl fun h => .inr (.inl h)⟩
  | mrtest ra =>
    simp only [exec, execMrtest]
    split
    · exact ⟨_, rfl, .inl ⟨_, s.rng, .refl _, rfl⟩⟩
    · rename_i a _
      split
      · refine ⟨_, rfl, ?_⟩
        have ha := mrRounds_after (getX a s) (roundsLeft s) s.rng
        rcases mrFinish_cases (mrRounds (getX a s) (roundsLeft s) s.rng) s with ⟨b, h⟩ | ⟨e, h⟩
        · exact .inr (.inr ⟨ra, b, _, rfl, ha, h⟩)
        · exact .inl ⟨e, _, ha, h⟩
      · exact ⟨_, rfl, .inl ⟨_, s.rng, .refl _, rfl⟩⟩

/-- A completion neither looks at the schedule nor at what the host last saw. -/
theorem exec_withHost (i : Instr) {s t : State} (ag : List Move) (r : Response) (h : exec i s = .next t) :
    exec i { s with agenda := ag, response := r } = .next { t with agenda := ag, response := r } := by
  have four (f : Nat → Nat → Nat → Nat) (rd ra rb rm : Field) :
      modulusCommand f rd ra rb rm { s with agenda := ag, response := r } =
        { modulusCommand f rd ra rb rm s with agenda := ag, response := r } := by
    simp only [modulusCommand, getX]
    split
    · rename_i d a b m _ _ _ _
      by_cases hm : s.x[m] = 0 <;> simp only [hm, if_true, if_false] <;> rfl
    · rfl
  have finish (v : Verdict × Source) :
      mrFinish v { s with agenda := ag, response := r } = { mrFinish v s with agenda := ag, response := r } := by
    unfold mrFinish
    split <;> rfl
  cases i with
  | modmul rd ra rb rm =>
    obtain rfl := Host.Outcome.next.inj h
    exact congrArg _ (four modmul rd ra rb rm)
  | modexp rd ra rb rm =>
    obtain rfl := Host.Outcome.next.inj h
    exact congrArg _ (four powMod rd ra rb rm)
  | mrtest ra =>
    simp only [exec, execMrtest, getX, roundsLeft] at h ⊢
    split at h
    · obtain rfl := Host.Outcome.next.inj h; rfl
    · rename_i a _
      by_cases hd : inDomain s.x[a] = true
      · simp only [hd, if_true] at h ⊢
        obtain rfl := Host.Outcome.next.inj h
        exact congrArg _ (finish _)
      · simp only [hd] at h ⊢
        obtain rfl := Host.Outcome.next.inj h
        rfl

/-- Everything a completion can do (spec/10_state.md R32). -/
theorem complete_cases (s : State) :
    ∃ t : State, complete s = .next t ∧
      ((∃ e g, s.rng.After g ∧ t = raiseError e { s with rng := g }) ∨
       (∃ d v, t = succeed (setX d v s)) ∨
       (∃ ra b g, decode s.lastCmd = .ok (.mrtest ra) ∧ s.rng.After g ∧
          t = succeed (setPrime b { s with rng := g }))) := by
  unfold complete
  split
  · rename_i i hi
    obtain ⟨t, h, hc⟩ := exec_cases i s
    refine ⟨t, h, hc.imp_right (.imp_right ?_)⟩
    rintro ⟨ra, b, g, rfl, hg⟩
    exact ⟨ra, b, g, hi, hg⟩
  · exact ⟨_, rfl, .inl ⟨_, s.rng, .refl _, rfl⟩⟩

/-- What a pending draw means: an MRTEST in flight, on an operand in its domain, a round left, a READY source. -/
theorem drawPending_eq_some {s : State} {n : Nat} (h : drawPending s = some n) :
    s.busy = true ∧ 0 < roundsLeft s ∧ s.rng.state = .ready ∧ inDomain n = true ∧
      ∃ a : RegIdx, decode s.lastCmd = .ok (.mrtest (fieldOf a)) ∧ getX a s = n := by
  unfold drawPending at h
  split at h
  · rename_i ra hd
    split at h
    · rename_i a hr
      split at h
      · rename_i hc
        simp only [Bool.and_eq_true, decide_eq_true_eq, Source.isReady_iff] at hc
        obtain rfl := Option.some.inj h
        obtain rfl := (regIndex_eq_some_iff ra a).mp hr
        exact ⟨hc.1.1.1, hc.1.2, hc.2, hc.1.1.2, a, hd, rfl⟩
      · cases h
    · cases h
  · cases h

/-- Everything one answered round can do: a round counted, or the command ended. -/
theorem roundStep_cases (n d : Nat) (s : State) :
    ∃ g, s.rng.After g ∧
      (roundStep n d s = { s with rng := g, roundsPassed := s.roundsPassed + 1 } ∨
       (∃ b, roundStep n d s = succeed (setPrime b { s with rng := g })) ∨
       (∃ e, roundStep n d s = raiseError e { s with rng := g })) := by
  refine ⟨(mrTrial n d s.rng).2, mrTrial_after n d s.rng, ?_⟩
  unfold roundStep
  split
  · rename_i g h; rw [h]; exact .inl rfl
  · rcases mrFinish_cases (mrTrial n d s.rng) s with ⟨b, h⟩ | ⟨e, h⟩
    · exact .inr (.inl ⟨b, h⟩)
    · exact .inr (.inr ⟨e, h⟩)

end Sys2Proof.Machine
end

