-- ==== Sys2Proof/Laws/PerInstr.lean ====
section
/-! SUPPORT. Statements about every instruction as syntax, one lemma per constructor (LAWS.json). -/

namespace Sys2Proof.Laws

/-- The word of a well-formed command lies in its row of the opcode map: `(word AND mask) = match`
(spec/30_encoding.md R93). -/
def RowPattern.Statement (i : Instr) : Prop := i.WellFormed → encode i &&& rowMask i = rowMatch i

/-- The masked word of a four-operand command, bit by bit. -/
theorem formatC_and_mask (o : BitVec 8) (rd ra rb rm : Field) (hd : rd.getLsbD 3 = false)
    (ha : ra.getLsbD 3 = false) (hb : rb.getLsbD 3 = false) (hm : rm.getLsbD 3 = false) :
    formatC o rd ra rb rm &&& 0xFF8888FF = formatC o 0 0 0 0 := by
  apply BitVec.eq_of_getLsbD_eq
  intro i hi
  simp only [formatC, BitVec.getLsbD_and, BitVec.getLsbD_append]
  interval_cases i <;> simp_all

theorem RowPattern.modmul (rd ra rb rm : Field) : RowPattern.Statement (.modmul rd ra rb rm) := by
  intro h
  simp only [Instr.WellFormed, Instr.wf, Bool.and_eq_true, fieldLegal_iff_bit3] at h
  obtain ⟨⟨⟨hd, ha⟩, hb⟩, hm⟩ := h
  exact (formatC_and_mask 0x01 rd ra rb rm hd ha hb hm).trans (show formatC 0x01 0 0 0 0 = 0x01000000 by decide)

theorem RowPattern.modexp (rd ra rb rm : Field) : RowPattern.Statement (.modexp rd ra rb rm) := by
  intro h
  simp only [Instr.WellFormed, Instr.wf, Bool.and_eq_true, fieldLegal_iff_bit3] at h
  obtain ⟨⟨⟨hd, ha⟩, hb⟩, hm⟩ := h
  exact (formatC_and_mask 0x02 rd ra rb rm hd ha hb hm).trans (show formatC 0x02 0 0 0 0 = 0x02000000 by decide)

theorem RowPattern.mrtest (ra : Field) : RowPattern.Statement (.mrtest ra) := by
  revert ra; unfold RowPattern.Statement; decide

end Sys2Proof.Laws
end

