-- ==== Sys2Proof/Laws/Step.lean ====
section
/-! SUPPORT. The inversion of a step: everything a step that answers a next state can have done, one case for each
effect, with what guarded it. Every invariant is a case analysis of it. -/

namespace Sys2Proof.Machine

/-- An admitted write to `CTRL` is one at `BASE + 0x008`. -/
theorem addr_of_ctrl {p : Config.Params} {addr : Nat} (h : accessTarget p addr 4 = some .ctrl) :
    addr = p.base + 0x008 := by
  obtain ⟨-, hb, ht⟩ := accessTarget_eq_some h
  rcases targetAt_eq_some ht with h | h | h | h | h | h | ⟨_, _, h, _⟩ <;> simp_all
  omega

/-- An admitted write to `CMD` is one at `BASE`. -/
theorem addr_of_cmd {p : Config.Params} {addr : Nat} (h : accessTarget p addr 4 = some .cmd) :
    addr = p.base + 0x000 := by
  obtain ⟨-, hb, ht⟩ := accessTarget_eq_some h
  rcases targetAt_eq_some ht with h | h | h | h | h | h | ⟨_, _, h, _⟩ <;> simp_all
  omega

/-- An admitted write to an operand word is one inside the operand. -/
theorem word_of_operand {p : Config.Params} {addr k : Nat} {i : RegIdx}
    (h : accessTarget p addr 4 = some (.operand i k)) : k < p.words := by
  obtain ⟨-, hb, ht⟩ := accessTarget_eq_some h
  rcases targetAt_eq_some ht with h | h | h | h | h | h | ⟨_, _, h, _⟩ <;> simp_all

/-- One poll of `wait` always answers: the host is given `STATUS`, and only while BUSY = 1 the wait goes on. -/
theorem hostWait_eq (s : State) :
    hostWait s = .next { s with
      response := .data (statusWord s), agenda := if s.busy then whileWaiting s.agenda else s.agenda } := by
  have status : targetAt s.params 0x004 = some .status := rfl
  simp only [hostWait, hostRead, accessTarget_base_add, status, statusWord_busy]
  split <;> rfl

/-- Running on from where a run left off. -/
theorem runFor_add (m n : Nat) {s t : State} (h : runFor m s = .next t) : runFor (m + n) s = runFor n t := by
  induction m generalizing s with
  | zero => rw [Nat.zero_add, Host.Outcome.next.inj h]
  | succ m ih =>
    rw [Nat.add_right_comm, runFor]
    rw [runFor] at h
    cases hs : stepSystem s <;> simp only [hs] at h ⊢
    · exact ih h
    · cases h
    · cases h

/-- What a step from `s` to `t` has done, `rest` being the moves left after it. -/
inductive StepDid (s t : State) : Prop where
  /-- The engine's turn, or no move left, with no command in flight. -/
  | idle (rest : List Move) (busy : s.busy = false) (eq : t = { s with agenda := rest })
  /-- The command in flight ended in an error. -/
  | failed (rest : List Move) (e : Error) (g : Source) (turn : EnginesMove s) (busy : s.busy = true) (later : s.rng.After g)
      (eq : t = raiseError e { s with agenda := rest, rng := g })
  /-- The command in flight ended with success and wrote a register. -/
  | stored (rest : List Move) (i : Instr) (d : RegIdx) (v : Nat) (turn : EnginesMove s) (busy : s.busy = true)
      (ran : exec i { s with agenda := rest } = .next t)
      (eq : t = succeed (setX d v { s with agenda := rest }))
  /-- The MRTEST in flight ended with a verdict. -/
  | judged (rest : List Move) (ra : Field) (b : Bool) (g : Source) (turn : EnginesMove s) (busy : s.busy = true)
      (isMrtest : decode s.lastCmd = .ok (.mrtest ra)) (later : s.rng.After g)
      (eq : t = succeed (setPrime b { s with agenda := rest, rng := g }))
  /-- The MRTEST in flight passed one round, by an answered draw. -/
  | counted (rest : List Move) (g : Source) (turn : EnginesMove s) (busy : s.busy = true)
      (left : s.roundsPassed < s.mrIters.toNat) (later : s.rng.After g)
      (eq : t = { s with agenda := rest, rng := g, roundsPassed := s.roundsPassed + 1 })
  /-- The host read a register of the window, a poll of `wait` among them. -/
  | read (rest : List Move) (w : Word) (eq : t = { s with agenda := rest, response := .data w })
  /-- The host made a write without any effect. -/
  | ignored (rest : List Move) (eq : t = { s with agenda := rest, response := .none })
  /-- A host write was dropped and flagged. -/
  | dropped (rest : List Move) (eq : t = { s with agenda := rest, response := .none, hzd := true })
  /-- A command was accepted. -/
  | accepted (rest : List Move) (w : Word) (move : s.agenda = .write (s.params.base + 0x000) 4 w :: rest)
      (busy : s.busy = false) (err : s.err = false)
      (eq : t = accept w { s with agenda := rest, response := .none })
  /-- The block was soft reset. -/
  | softReset (rest : List Move) (w : Word) (move : s.agenda = .write (s.params.base + 0x008) 4 w :: rest)
      (busy : s.busy = false) (srst : w.getLsbD 1 = true)
      (eq : t = blockReset { s with agenda := rest, response := .none })
  /-- The error was cleared. -/
  | errorCleared (rest : List Move) (w : Word)
      (move : s.agenda = .write (s.params.base + 0x008) 4 w :: rest)
      (busy : s.busy = false) (clrerr : w.getLsbD 0 = true)
      (eq : t = clearError { s with agenda := rest, response := .none })
  /-- `MR_ITERS` was written. -/
  | itersSet (rest : List Move) (w : Word) (busy : s.busy = false)
      (eq : t = { s with agenda := rest, response := .none, mrIters := w })
  /-- A word of an operand register was written. -/
  | wordSet (rest : List Move) (i : RegIdx) (k : Nat) (w : Word) (inside : k < s.params.words)
      (busy : s.busy = false)
      (eq : t = setX i (replaceWord (getX i s) k w) { s with agenda := rest, response := .none })
  /-- The host initialised the source. -/
  | initialised (rest : List Move) (seed : Nat) (move : s.agenda = .rngInit seed :: rest)
      (busy : s.busy = false) (was : s.rng.state = .uninit)
      (eq : t = { s with agenda := rest, response := .none, rng := ⟨.ready, seed, 0⟩ })
  /-- The host cleared the source. -/
  | sourceCleared (rest : List Move) (move : s.agenda = .rngClear :: rest)
      (busy : s.busy = false) (was : s.rng.state = .ready)
      (eq : t = { s with agenda := rest, response := .none, rng := { s.rng with state := .cleared } })
  /-- The host called the source for itself. -/
  | called (rest : List Move) (v : Nat) (busy : s.busy = false) (was : s.rng.state = .ready)
      (eq : t = { s with agenda := rest, response := .answer v, rng := s.rng.advance })
  /-- The block was hard reset. -/
  | hardReset (rest : List Move) (move : s.agenda = .hardReset :: rest)
      (eq : t = blockReset { s with agenda := rest })

/-- The inversion of the engine's turn. -/
theorem engineTurn_did {s t : State} {rest : List Move} (turn : EnginesMove s)
    (h : engineTurn { s with agenda := rest } = .next t) :
    StepDid s t := by
  unfold engineTurn at h
  split at h
  · rename_i hb
    unfold complete at h
    split at h
    · rename_i i hd
      obtain ⟨t', h', hc⟩ := exec_cases i { s with agenda := rest }
      obtain rfl : t' = t := by rw [h] at h'; exact (Host.Outcome.next.inj h').symm
      rcases hc with ⟨e, g, hg, eq⟩ | ⟨d, v, eq⟩ | ⟨ra, b, g, rfl, hg, eq⟩
      · exact .failed rest e g turn hb hg eq
      · exact .stored rest i d v turn hb h' eq
      · exact .judged rest ra b g turn hb hd hg eq
    · exact .failed rest _ s.rng turn hb (.refl _) (Host.Outcome.next.inj h).symm
  · rename_i hb
    exact .idle rest (by simpa using hb) (Host.Outcome.next.inj h).symm

/-- The inversion of a source's answer. -/
theorem sourceAnswer_did {s t : State} {rest : List Move} {d : Nat} (turn : EnginesMove s)
    (h : sourceAnswer d { s with agenda := rest } = .next t) : StepDid s t := by
  unfold sourceAnswer at h
  split at h
  · rename_i n hp
    obtain ⟨hb, hl, -, -, a, hd, -⟩ := drawPending_eq_some hp
    obtain ⟨g, hg, hc⟩ := roundStep_cases n d { s with agenda := rest }
    obtain rfl := Host.Outcome.next.inj h
    rcases hc with eq | ⟨b, eq⟩ | ⟨e, eq⟩
    · exact .counted rest g turn hb (by simp only [roundsLeft] at hl; omega) hg eq
    · exact .judged rest _ b g turn hb hd hg eq
    · exact .failed rest e g turn hb hg eq
  · cases h

/-- The inversion of a host write. -/
theorem hostWrite_did {s t : State} {rest : List Move} {addr size : Nat} {w : Word}
    (move : s.agenda = .write addr size w :: rest)
    (h : hostWrite addr size w { s with agenda := rest } = .next t) : StepDid s t := by
  unfold hostWrite at h
  split at h
  · rename_i target ht
    obtain ⟨rfl, -⟩ := accessTarget_eq_some ht
    obtain rfl := Host.Outcome.next.inj h
    rcases writeTarget_cases target w { s with agenda := rest } with
      h | h | ⟨rfl, hb, he, h⟩ | ⟨rfl, hb, hw, h⟩ | ⟨rfl, hb, hw, h⟩ | ⟨-, hb, h⟩ | ⟨i, k, rfl, hb, h⟩ <;>
      rw [h]
    · exact .ignored rest rfl
    · exact .dropped rest rfl
    · exact .accepted rest w (by rw [move, addr_of_cmd ht]) hb he rfl
    · exact .softReset rest w (by rw [move, addr_of_ctrl ht]) hb hw rfl
    · exact .errorCleared rest w (by rw [move, addr_of_ctrl ht]) hb hw rfl
    · exact .itersSet rest w hb rfl
    · exact .wordSet rest i k w (word_of_operand ht) hb rfl
  · cases h

/-- The inversion of a step. -/
theorem step_did {s t : State} (h : step s = .next t) : StepDid s t := by
  unfold step stepSystem at h
  split at h
  · rename_i ha
    refine engineTurn_did (rest := []) (.inl ha) ?_
    rwa [show ({ s with agenda := [] } : State) = s by rw [← ha]]
  · rename_i m rest ha
    cases m with
    | read addr size =>
      simp only [takeMove, hostRead] at h
      split at h
      · exact .read rest _ (Host.Outcome.next.inj h).symm
      · cases h
    | write addr size w => exact hostWrite_did ha h
    | wait =>
      rw [takeMove, hostWait_eq] at h
      exact .read _ _ (Host.Outcome.next.inj h).symm
    | rngInit seed =>
      simp only [takeMove, hostInit] at h
      repeat' split at h
      · cases h
      · rename_i hb hs
        exact .initialised rest seed ha (by simpa using hb) hs (Host.Outcome.next.inj h).symm
      · cases h
    | rngClear =>
      simp only [takeMove, hostClear] at h
      repeat' split at h
      · cases h
      · rename_i hb hs
        exact .sourceCleared rest ha (by simpa using hb) hs (Host.Outcome.next.inj h).symm
      · cases h
    | rngBelow bound =>
      simp only [takeMove, hostBelow, hostCall, Source.isReady_iff] at h
      repeat' split at h
      · cases h
      · cases h
      · rename_i hb hs
        exact .called rest _ (by simpa using hb) hs (Host.Outcome.next.inj h).symm
      · cases h
    | rngBits n =>
      simp only [takeMove, hostBits, hostCall, Source.isReady_iff] at h
      repeat' split at h
      · cases h
      · rename_i hb hs
        exact .called rest _ (by simpa using hb) hs (Host.Outcome.next.inj h).symm
      · cases h
    | hardReset => exact .hardReset rest ha (Host.Outcome.next.inj h).symm
    | engine => exact engineTurn_did (.inr (.inl ⟨rest, ha⟩)) h
    | answer d => exact sourceAnswer_did (.inr (.inr ⟨d, rest, ha⟩)) h

end Sys2Proof.Machine
end

