-- ==== Sys2Proof/Tests/Slice0.lean ====
section
/-! SUPPORT. Tests: expected results are the spec's own vectors (spec/95_test_vectors.md, at `W = 64`, `BASE = 0`) or worked
out by hand from its rules; and for every obligation with hypotheses a state and operands that meet them all. -/

namespace Sys2Proof.Tests

open Sys2Proof.Machine

/-! ## WellFormed: an ill-formed term for each check (R91) -/

theorem test_wf_modmul : (Instr.modmul 7 0 7 0).wf = true := by decide
theorem test_illformed_modmul_rd : (Instr.modmul 8 0 0 0).wf = false := by decide
theorem test_illformed_modmul_ra : (Instr.modmul 0 8 0 0).wf = false := by decide
theorem test_illformed_modmul_rb : (Instr.modmul 0 0 8 0).wf = false := by decide
theorem test_illformed_modmul_rm : (Instr.modmul 0 0 0 15).wf = false := by decide
theorem test_illformed_modexp_rd : (Instr.modexp 8 0 0 0).wf = false := by decide
theorem test_illformed_modexp_ra : (Instr.modexp 0 8 0 0).wf = false := by decide
theorem test_illformed_modexp_rb : (Instr.modexp 0 0 8 0).wf = false := by decide
theorem test_illformed_modexp_rm : (Instr.modexp 0 0 0 15).wf = false := by decide
theorem test_illformed_mrtest_ra : (Instr.mrtest 8).wf = false := by decide

/-! ## Decoding: words written out bit by bit from R93; vectors of 95 sections 2 to 5 -/

theorem test_decode_modmul :
    decode 0b00000001_0101_0110_0111_0100_00000000 = .ok (.modmul 5 6 7 4) := by decide
theorem test_decode_modexp :
    decode 0b00000010_0011_0000_0001_0010_00000000 = .ok (.modexp 3 0 1 2) := by decide
theorem test_decode_mrtest :
    decode 0b00000011_0000_0111_0000_0000_00000000 = .ok (.mrtest 7) := by decide
theorem test_encode_words :
    encode (.modmul 5 6 7 4) = 0x01567400 ∧ encode (.modexp 4 1 2 3) = 0x02412300 ∧
      encode (.mrtest 5) = 0x03050000 := by decide
theorem test_illegal_words :
    [0x00000000, 0xFFFFFFFF, 0x04000000, 0x7F000000, 0x00301200, 0x01301201, 0x02301280, 0x01801200,
      0x01381200, 0x01308200, 0x01301A00, 0x03100000, 0x03001000, 0x03000100, 0x03080000, 0x03000001].all
      (fun w => (decode w).toOption = none) = true := by decide
theorem test_decodeTableWord :
    decodeTableWord 32 0x03070000 = some (.mrtest 7) ∧ decodeTableWord 32 0 = none := by decide

/-! ## States for the tests -/

/-- `W = 64`, `BASE = 0`. -/
def p64 : Config.Params := ⟨1, 0⟩
/-- An idle block whose registers hold `x`. -/
def idle (x : Vector Nat 8) : State := { State.powerOn p64 with x := x }
/-- The same with the command `c` in flight. -/
def running (c : Word) (x : Vector Nat 8) : State := accept c (idle x)
/-- `s` with one move to make. -/
def about (m : Move) (s : State) : State := { s with agenda := [m] }
/-- An MRTEST of `x[1] = n` in flight with `t` rounds and a source in state `g` (95 section 4). -/
def testing (n : Nat) (t : Word) (g : RngState) : State :=
  { running 0x03010000 #v[0, n, 0, 0, 0, 0, 0, 0] with mrIters := t, rng := ⟨g, 9, 0⟩ }
/-- A field of the state an outcome leaves, if it is a next state. -/
def after {α : Type} (f : State → α) : Host.Outcome State Fault Refusal → Option α
  | .next s => some (f s)
  | _ => none
/-- An outcome's fault or refusal, if it stops. -/
def stop : Host.Outcome State Fault Refusal → Option (Fault ⊕ Refusal)
  | .next _ => none
  | .fault r => some (.inl r)
  | .refused r => some (.inr r)

/-- The registers of the spec's MODEXP example (R121). -/
def xs497 : Vector Nat 8 := #v[4, 13, 497, 77, 0, 0, 0, 0]

/-! ## One step of each instruction -/

/-- Vector M14: a truncating multiplier would give 0. -/
theorem test_modmul_exact_product :
    after (fun s => (s.x[3], statusWord s))
      (step (running 0x01301200 #v[2 ^ 32, 2 ^ 32, 2 ^ 64 - 1, 77, 0, 0, 0, 0])) =
      some (1, 0x002) := by decide
/-- 95 section 2, aliasing: `modmul x0, x0, x0, x1` with 7 and 5 leaves 4. -/
theorem test_modmul_sources_first :
    after (fun s => s.x[0]) (step (running 0x01000100 #v[7, 5, 0, 0, 0, 0, 0, 0])) = some 4 := by decide
/-- Vector E1 (D0's own example). -/
theorem test_modexp_445 :
    after (fun s => (s.x[3], statusWord s)) (step (running 0x02301200 xs497)) = some (445, 0x002) := by decide
/-- Vectors E6 and E20: modulus 1 with exponent 0 gives 1; modulus 0 is ModulusZero and writes nothing. -/
theorem test_modexp_small_moduli :
    after (fun s => s.x[3]) (step (running 0x02301200 #v[5, 0, 1, 77, 0, 0, 0, 0])) = some 1 ∧
    after (fun s => (s.x[3], statusWord s)) (step (running 0x02301200 #v[5, 0, 0, 77, 0, 0, 0, 0])) =
      some (77, 0x206) := by decide
/-- Vector T7, its one draw answered with 0: 561 is found composite. -/
theorem test_mrtest_composite :
    after (fun s => (statusWord s, s.rng.position)) (step (about (.answer 0) (testing 561 1 .ready))) =
      some (0x022, 1) := by decide
/-- Vectors T5 (PRIME keeps its old 1) and T4. -/
theorem test_mrtest_errors :
    after statusWord (step { testing 221 1 .uninit with prime := true }) = some 0x40E ∧
    after statusWord (step (testing 999330 1 .ready)) = some 0x326 := by decide

/-! ## The window and the control registers (95 section 6) -/

/-- Steps 9 and 10: a CMD write is accepted; a register write while BUSY is dropped and flagged. -/
theorem test_accept_then_drop :
    after (fun s => (statusWord s, s.lastCmd)) (step (about (.write 0 4 0x02301200) (idle xs497))) =
      some (0x001, 0x02301200) ∧
    after (fun s => (statusWord s, s.x[0])) (step (about (.write 0x1000 4 99) (running 0x02301200 xs497))) =
      some (0x011, 4) := by decide
/-- Steps 6 and 7: a CMD write while ERR = 1 is dropped and flagged; CLRERR clears. -/
theorem test_error_state :
    after statusWord (step (about (.write 0 4 0x01301200) (raiseError .modulusZero (idle xs497)))) =
      some 0x216 ∧
    after statusWord (step (about (.write 8 4 1) (dropWrite (raiseError .modulusZero (idle xs497))))) =
      some 0x000 := by decide
/-- Step 15: the high word of `x[1]` and the low word of `x[3]`; and PARAM_W reads 64. -/
theorem test_window_reads :
    after State.response (step (about (.read 0x100C 4) (idle xs497))) = some (.data 0) ∧
    after State.response (step (about (.read 0x1018 4) (idle xs497))) = some (.data 77) ∧
    after State.response (step (about (.read 0x010 4) (idle xs497))) = some (.data 64) := by decide
/-- The four accesses of 95 section 6 that are refused. -/
theorem test_bus_errors :
    [Move.read 0x1001 4, .read 0x004 1, .read 0x018 4, .read 0x1040 4].all
      (fun m => stop (step (about m (idle xs497))) = some (.inl .busError)) = true := by decide
/-- A word placed by `withFetchWord` is the next to run, from reset: MODMUL on a zero modulus. -/
theorem test_withFetchWord :
    after (fun s => (s.errCode, s.lastCmd)) (step (State.reset.withFetchWord 32 0x01301200)) =
      some (some .modulusZero, 0x01301200) := by decide

/-- `wait` (R97): a poll that sees BUSY = 1 leaves STATUS and lets the engine move before it goes on, but after an
answer already scheduled; one that sees BUSY = 0 ends it. -/
theorem test_wait :
    after (fun s => (s.response, s.agenda)) (step (about .wait (running 0x02301200 xs497))) =
      some (.data 0x001, [.engine, .wait]) ∧
    after State.agenda (step { testing 221 1 .ready with agenda := [.wait, .answer 0] }) =
      some [.answer 0, .wait] ∧
    after (fun s => (s.response, s.agenda)) (step (about .wait (idle xs497))) = some (.data 0, []) := by decide
/-- A bare command line is `issue`, one CMD write of its word, then `wait` (R97). -/
theorem test_commandLine : commandLine p64 (.mrtest 5) = [.write 0 4 0x03050000, .wait] := by decide
/-- The host's answers keep their ranges whatever the source is (R176, R212): `[0, 1)` and `[0, 2^0)` hold only 0. -/
theorem test_host_ranges (g : Source) : g.hostBelow 1 = 0 ∧ g.hostBits 0 = 0 :=
  ⟨Nat.mod_one _, Nat.lt_one_iff.mp (BitVec.isLt _)⟩

/-! ## Witnesses: the hypotheses of each obligation met together -/

theorem test_witness_DecodeOfEncode : (Instr.modexp 7 0 7 1).WellFormed := by decide
theorem test_witness_EncodeOfDecode : decode 0x01777700 = .ok (.modmul 7 7 7 7) := by decide
theorem test_witness_NonzeroModulus : getX 2 (idle xs497) ≠ 0 := by decide
theorem test_witness_ZeroModulus : getX 7 (idle xs497) = 0 := by decide
theorem test_witness_PowModValueLaw : 2 ≤ 497 ∧ (1 : Nat) = 1 ∧ 1 ≤ 1 ∧ 497 < 2 ^ p64.width := by decide
theorem test_witness_PowModLoop : 1 ≤ 497 ∧ 4 ≤ bitlen 13 := by decide
/-- The key of R165: n = 3233, e = 17, d = 413, message 65 in `x3`, ciphertext to `x4`. -/
theorem test_witness_DecryptAfterEncrypt :
    let s := idle #v[3233, 17, 413, 65, 0, 0, 0, 0]
    Nat.Prime 61 ∧ Nat.Prime 53 ∧ (61 : Nat) ≠ 53 ∧ getX 0 s = 61 * 53 ∧
      getX 1 s * getX 2 s % Nat.lcm (61 - 1) (53 - 1) = 1 % Nat.lcm (61 - 1) (53 - 1) ∧
      0 < getX 1 s * getX 2 s ∧ getX 3 s < getX 0 s ∧ (4 : RegIdx) ≠ 2 ∧ (4 : RegIdx) ≠ 0 :=
  ⟨by norm_num, by norm_num, by decide, by decide, by decide, by decide, by decide, by decide, by decide⟩
theorem test_witness_Decompose :
    3 ≤ 561 ∧ 561 % 2 = 1 ∧ 561 - 1 = 2 ^ 4 * 35 ∧ 35 % 2 = 1 ∧ 561 < 2 ^ p64.width := by decide
theorem test_witness_WitnessDraw :
    let g : Source := ⟨.ready, 0, 0⟩
    let u : Source := ⟨.uninit, 0, 0⟩
    5 ≤ 5 ∧ u.state ≠ .ready ∧ g.state = .ready ∧ 1 < 5 - 3 ∧ 5 - 3 ≤ 2 ∧ 2 ≤ 3 ∧ 3 ≤ 5 - 2 := by decide
theorem test_witness_Trial : 5 ≤ 221 ∧ 221 % 2 = 1 ∧ 2 ≤ 219 ∧ 219 ≤ 221 - 2 := by decide
theorem test_witness_PrimePassesEveryTrial : Nat.Prime 17 ∧ 5 ≤ 17 ∧ 2 ≤ 3 ∧ 3 ≤ 17 - 2 :=
  ⟨by norm_num, by decide, by decide, by decide⟩
theorem test_witness_OperandDomain :
    getX 0 (idle #v[4, 3, 6, 0, 0, 0, 0, 0]) < 5 ∧ getX 2 (idle #v[4, 3, 6, 0, 0, 0, 0, 0]) % 2 = 0 := by decide
theorem test_witness_NoRounds :
    5 ≤ getX 1 (testing 221 0 .uninit) ∧ getX 1 (testing 221 0 .uninit) % 2 = 1 ∧
      (testing 221 0 .uninit).mrIters = 0 := by decide
theorem test_witness_RngNotReady :
    let s := testing 5 1 .cleared
    5 ≤ getX 1 s ∧ getX 1 s % 2 = 1 ∧ s.roundsPassed < s.mrIters.toNat ∧ s.rng.state ≠ .ready := by decide
theorem test_witness_RunsItsRounds :
    5 ≤ getX 1 (testing 5 4 .ready) ∧ getX 1 (testing 5 4 .ready) % 2 = 1 ∧
      (testing 5 4 .ready).rng.state = .ready := by decide
theorem test_witness_NeverRejectsAPrime :
    (getX 1 (testing 7 2 .ready)).Prime ∧ 5 ≤ getX 1 (testing 7 2 .ready) ∧ (testing 7 2 .ready).err = false :=
  ⟨(by norm_num : Nat.Prime 7), by decide, by decide⟩
/-- A draw out of range (218), a composite one (135) and a passing one (172), of vectors T18 and T8. -/
theorem test_witness_AnsweredDraw :
    let s := about (.answer 218) (testing 221 2 .ready)
    s.agenda = .answer 218 :: [] ∧ s.busy = true ∧ decode s.lastCmd = .ok (.mrtest (fieldOf 1)) ∧
      5 ≤ getX 1 s ∧ getX 1 s % 2 = 1 ∧ s.roundsPassed < s.mrIters.toNat ∧ s.rng.state = .ready ∧
      221 - 3 ≤ 218 ∧ ¬ 221 - 3 ≤ 217 ∧
      mrRound 221 (decompose 221).1 (decompose 221).2 (2 + 135) = .composite ∧
      mrRound 221 (decompose 221).1 (decompose 221).2 (2 + 172) = .pass := by decide
theorem test_witness_SplitCompletion : drawPending (testing 221 2 .ready) = some 221 := by decide
theorem test_witness_StepRuns :
    let s := about .engine (running 0x02301200 xs497)
    s.busy = true ∧ decode s.lastCmd = .ok (.modexp 3 0 1 2) ∧ s.agenda = .engine :: [] ∧
      (running 0x02301200 xs497).agenda = [] := by decide
theorem test_witness_IllegalWord :
    let s := about .engine (running 0x00000000 xs497)
    s.agenda = .engine :: [] ∧ s.busy = true ∧ (decode s.lastCmd).toOption = none := by decide
theorem test_witness_IdleEngine :
    (about .engine (idle xs497)).busy = false ∧ (about .engine (idle xs497)).agenda = .engine :: [] ∧
      (idle xs497).agenda = [] ∧ (idle xs497).busy = false := by decide
theorem test_witness_IssuedCommand :
    (Instr.mrtest 7).WellFormed ∧ (idle xs497).busy = false ∧ (idle xs497).err = false := by decide
/-- A `wait` at BUSY = 1 and one at BUSY = 0; and schedules in which no other agent is first. -/
theorem test_witness_Wait :
    (about .wait (running 0x02301200 xs497)).agenda = .wait :: [] ∧ (running 0x02301200 xs497).busy = true ∧
      (about .wait (idle xs497)).busy = false ∧ (idle xs497).agenda = [] ∧
      (about (.read 4 4) (idle xs497)).agenda = .read 4 4 :: [] ∧ (Move.read 4 4).isHost = true := by decide
theorem test_witness_EveryCompletion : (running 0x01301200 xs497).busy = true := by decide
/-- A completion that ends in an error (x[7] = 0 as modulus) and one that does not. -/
theorem test_witness_ErrorCompletion :
    (running 0x01301700 xs497).busy = true ∧ (running 0x01301700 xs497).err = false ∧
      after State.err (engineTurn (running 0x01301700 xs497)) = some true ∧
      after State.err (engineTurn (running 0x01301200 xs497)) = some false := by decide
theorem test_witness_CmdWrite :
    let s := about (.write 0 4 0x02301200) (idle xs497)
    s.agenda = .write (s.params.base + 0x000) 4 0x02301200 :: [] ∧ s.busy = false ∧ s.err = false ∧
      (running 0 xs497).busy = true ∧ (raiseError .rngRange (idle xs497)).err = true := by decide
theorem test_witness_CtrlWrite :
    let s := about (.write 8 4 3) (idle xs497)
    s.agenda = .write (s.params.base + 0x008) 4 3 :: [] ∧ (3 : Word).getLsbD 1 = true ∧
      (1 : Word).getLsbD 0 = true ∧ (1 : Word).getLsbD 1 = false ∧ (4 : Word).getLsbD 0 = false := by decide
theorem test_witness_MrItersWrite :
    let s := about (.write 12 4 5) (idle xs497)
    s.agenda = .write (s.params.base + 0x00C) 4 5 :: [] := by decide
theorem test_witness_ReadOnlyWrites :
    let s := about (.write 0x14 4 0xFFFFFFFF) (running 0 xs497)
    (0x14 = 0x004 ∨ 0x14 = 0x010 ∨ 0x14 = 0x014) ∧
      s.agenda = .write (s.params.base + 0x14) 4 0xFFFFFFFF :: [] := by decide
theorem test_witness_ControlReads :
    let s := about (.read 0x010 4) (idle xs497)
    (0x010, BitVec.ofNat 32 s.params.width) ∈ [(0x000, (0 : Word)), (0x004, statusWord s), (0x008, 0),
      (0x00C, s.mrIters), (0x010, BitVec.ofNat 32 s.params.width), (0x014, s.lastCmd)] ∧
      s.agenda = .read (s.params.base + 0x010) 4 :: [] := by decide
theorem test_witness_HardReset :
    (about .hardReset (running 0x02301200 xs497)).agenda = .hardReset :: [] := by decide
/-- One access of each kind that is not admitted, at the edges: byte size, misaligned, the first and the last reserved
offset, the first word past the window; and one below `BASE`. -/
theorem test_witness_Inadmissible :
    (1 ≠ 4) ∧ (0x1001 - p64.base) % 4 ≠ 0 ∧ (0x018 ≤ 0x018 - p64.base ∧ 0x018 - p64.base < 0x1000) ∧
      (0x018 ≤ 0xFFC - p64.base ∧ 0xFFC - p64.base < 0x1000) ∧ 0x1000 + p64.width ≤ 0x1040 - p64.base ∧
      0 < (Config.Params.mk 1 1).base := by decide
/-- The last word of the window. -/
theorem test_witness_OperandRead :
    let s := about (.read 0x103C 4) (idle xs497)
    1 < s.params.words ∧
      s.agenda = .read (s.params.base + 0x1000 + (7 : RegIdx) * (s.params.width / 8) + 4 * 1) 4 :: [] := by
  decide
theorem test_witness_Reads :
    ∃ t, step (about (.read 4 4) (idle xs497)) = .next t := ⟨_, rfl⟩
theorem test_witness_OperandWrite :
    let s := about (.write 0x103C 4 9) (idle xs497)
    1 < s.params.words ∧ s.busy = false ∧ (running 0 xs497).busy = true ∧
      s.agenda = .write (s.params.base + 0x1000 + (7 : RegIdx) * (s.params.width / 8) + 4 * 1) 4 9 :: [] := by
  decide
theorem test_witness_LoadReg :
    (idle xs497).busy = false ∧ OperandsFit (idle xs497) ∧ 2 ^ 64 - 1 < 2 ^ (idle xs497).params.width :=
  ⟨by decide, by unfold OperandsFit; decide, by decide⟩
theorem test_witness_Lifecycle :
    let s := idle xs497
    let r : State := { s with rng := ⟨.ready, 7, 3⟩ }
    let c : State := { s with rng := ⟨.cleared, 7, 3⟩ }
    (about (.rngInit 7) s).agenda = .rngInit 7 :: [] ∧ s.busy = false ∧ s.rng.state = .uninit ∧
      (about .rngClear r).agenda = .rngClear :: [] ∧ r.rng.state = .ready ∧
      c.rng.state ≠ .uninit ∧ c.rng.state ≠ .ready ∧ (running 0 xs497).busy = true := by decide
theorem test_witness_HostCall :
    let s : State := about (.rngBelow 10) { idle xs497 with rng := ⟨.ready, 7, 3⟩ }
    let u : State := about (.rngBits 0) { idle xs497 with rng := ⟨.ready, 7, 3⟩ }
    s.busy = false ∧ s.rng.state = .ready ∧ 0 < 10 ∧ s.agenda = .rngBelow 10 :: [] ∧
      u.busy = false ∧ u.rng.state = .ready ∧ u.agenda = .rngBits 0 :: [] := by decide
/-- A step that changes the source's state. -/
theorem test_witness_SourceStateChanges :
    ∃ t, step (about (.rngInit 7) (idle xs497)) = .next t ∧
      t.rng.state ≠ (about (.rngInit 7) (idle xs497)).rng.state := ⟨_, rfl, by decide⟩
/-- A state with a command in flight that meets the three invariants, and its step. -/
theorem test_witness_Invariants :
    FlagsSound (running 0x02301200 xs497) ∧ OperandsFit (running 0x02301200 xs497) ∧
      RoundsSound (running 0x02301200 xs497) ∧ ∃ t, step (running 0x02301200 xs497) = .next t :=
  ⟨by unfold FlagsSound; decide, by unfold OperandsFit; decide, by unfold RoundsSound; decide, _, rfl⟩
/-- A step that changes PRIME: MRTEST with no rounds. -/
theorem test_witness_PrimeChanges :
    ∃ t, step (testing 221 0 .uninit) = .next t ∧ t.prime ≠ (testing 221 0 .uninit).prime :=
  ⟨_, rfl, by decide⟩
theorem test_witness_LastCmdChanges :
    ∃ t, step (about (.write 0 4 0x03000000) (idle xs497)) = .next t ∧
      t.lastCmd ≠ (idle xs497).lastCmd := ⟨_, rfl, by decide⟩
/-- The three moves that write LASTCMD, each honoured. -/
theorem test_witness_LastCmdWritten :
    let s := { idle xs497 with lastCmd := 0x02301200 }
    s.busy = false ∧ s.err = false ∧ (2 : Word).getLsbD 1 = true ∧
      after State.lastCmd (step (about (.write 0 4 7) s)) = some 7 ∧
      after State.lastCmd (step (about .hardReset s)) = some 0 ∧
      after State.lastCmd (step (about (.write 8 4 2) s)) = some 0 := by decide
/-- A step that raises an error: ERR from 0 to 1. -/
theorem test_witness_ErrorRaised :
    (running 0x01301700 xs497).err = false ∧
      after State.err (step (running 0x01301700 xs497)) = some true := by decide
/-- A dropped write leaves the command in flight. -/
theorem test_witness_InFlight :
    ∃ t, (about (.write 0x1000 4 99) (running 0x02301200 xs497)).busy = true ∧
      step (about (.write 0x1000 4 99) (running 0x02301200 xs497)) = .next t ∧ t.busy = true :=
  ⟨_, by decide, rfl, by decide⟩
/-- A hard reset ends the command in flight, and so does its completion. -/
theorem test_witness_CommandEnds :
    (running 0x02301200 xs497).busy = true ∧
      after State.busy (step (about .hardReset (running 0x02301200 xs497))) = some false ∧
      after State.busy (step (running 0x02301200 xs497)) = some false := by decide
theorem test_witness_HazardFalls :
    (dropWrite (idle xs497)).hzd = true ∧
      after State.hzd (step (about (.write 8 4 1) (dropWrite (idle xs497)))) = some false := by decide
theorem test_witness_ErrorState :
    let s := raiseError .modulusZero (idle xs497)
    s.err = true ∧ s.busy = false ∧ after State.err (step (about (.write 0 4 0x01301200) s)) = some true ∧
      after State.err (step (about (.write 8 4 1) s)) = some false := by decide
/-- States whose step stops: by an access, by moves on the source, and by an answer no draw waits for. -/
theorem test_witness_Stops :
    stop (step (about (.answer 0) (idle xs497))) = some (.inr .unsolicitedAnswer) ∧
      stop (step (about (.rngBelow 0) { idle xs497 with rng := ⟨.ready, 7, 3⟩ })) = some (.inr .emptyRange) ∧
      stop (step (about (.rngInit 1) (running 0 xs497))) = some (.inr .sourceWhileBusy) ∧
      stop (step (about (.rngBits 8) (idle xs497))) = some (.inr .sourceNotReady) ∧
    stop (step (about (.read 0x018 4) (idle xs497))) = some (.inl .busError) ∧
      stop (step (about .rngClear (idle xs497))) = some (.inr .sourceLifecycle) := by decide

end Sys2Proof.Tests
end

section
/-! PROOFS of the family of spec/00_scope.md: the width bound of R21. Its four sources are `modmul` and `pow_mod` (bounded by the
modulus, R123), a replaced word (inside the operand, R66) and the zeros of a reset (R35). -/

namespace Sys2Proof.Machine

/-! ### Values that fit -/

/-- A register is at least one bus word wide, so it holds the unreduced 1 that `pow_mod` starts from. -/
theorem one_lt_two_pow_width (p : Config.Params) : 1 < 2 ^ p.width :=
  Nat.one_lt_two_pow (Nat.mul_pos (by decide) (words_pos p)).ne'

theorem modmul_lt (a b : Nat) {m : Nat} (hm : 0 < m) : modmul a b m < m := Nat.mod_lt _ hm

/-- The accumulator of `pow_mod`'s loop stays below any bound that holds for its start and for the modulus. -/
theorem powLoop_lt {m bound : Nat} (hm : 0 < m) (hle : m ≤ bound) {v : Nat} (hv : v < bound) (k p e : Nat) :
    powLoop m k v p e < bound := by
  induction k generalizing v p e with
  | zero => exact hv
  | succ k ih =>
    rw [powLoop]
    split
    · exact hv
    · refine ih ?_ _ _
      split
      · exact (modmul_lt v p hm).trans_le hle
      · exact hv

/-- `pow_mod` stays below any bound above 1 that the modulus does not exceed (R123). -/
theorem powMod_lt {m bound : Nat} (hm : 0 < m) (hle : m ≤ bound) (hone : 1 < bound) (base exponent : Nat) :
    powMod base exponent m < bound := powLoop_lt hm hle hone _ _ _

/-- Replacing a word inside an operand leaves the operand's width (R66). -/
theorem replaceWord_lt {p : Config.Params} {v k : Nat} (hv : v < 2 ^ p.width) (hk : k < p.words) (w : Word) :
    replaceWord v k w < 2 ^ p.width := by
  refine Nat.lt_pow_two_of_testBit _ fun b hb => ?_
  have outside : ¬(32 * k ≤ b ∧ b < 32 * k + 32) := by simp only [Config.Params.width] at hb; omega
  rw [replaceWord_testBit, if_neg outside]
  exact Nat.testBit_lt_two_pow (hv.trans_le (Nat.pow_le_pow_right (by decide) hb))

/-! ### States that fit -/

/-- `OperandsFit` looks at the registers and the parameters only. -/
theorem OperandsFit.congr {s t : State} (fit : OperandsFit s) (hx : t.x = s.x) (hp : t.params = s.params) :
    OperandsFit t := by
  intro i
  rw [getX_congr hx, hp]
  exact fit i

/-- Writing a value that fits to one register. -/
theorem OperandsFit.setX {s : State} (fit : OperandsFit s) {v : Nat} (hv : v < 2 ^ s.params.width) (d : RegIdx) :
    OperandsFit (setX d v s) := by
  intro i
  rw [setX_params]
  by_cases h : d = i
  · rw [h, getX_setX_self]; exact hv
  · rw [getX_setX_ne h]; exact fit i

theorem operandsFit_blockReset (s : State) : OperandsFit (blockReset s) := by
  intro i
  rw [getX_blockReset]
  exact Nat.two_pow_pos _

/-- The form of MODMUL and MODEXP keeps the width bound when its function does. -/
theorem OperandsFit.modulusCommand {s : State} (fit : OperandsFit s) {f : Nat → Nat → Nat → Nat}
    (hf : ∀ a b m, 0 < m → m < 2 ^ s.params.width → f a b m < 2 ^ s.params.width) (rd ra rb rm : Field) :
    OperandsFit (modulusCommand f rd ra rb rm s) := by
  rcases modulusCommand_cases f rd ra rb rm s with ⟨e, h⟩ | ⟨d, a, b, m, hm, h⟩ <;> rw [h]
  · exact fit.congr rfl rfl
  · exact (fit.setX (hf _ _ _ (Nat.pos_of_ne_zero hm) (fit m)) d).congr rfl rfl

/-- An MRTEST writes no operand register and no parameter (R138). -/
theorem execMrtest_frame {ra : Field} {s t : State} (h : execMrtest ra s = .next t) :
    t.x = s.x ∧ t.params = s.params := by
  unfold execMrtest at h
  split at h
  · obtain rfl := Host.Outcome.next.inj h; exact ⟨rfl, rfl⟩
  · rename_i a _
    split at h
    · obtain rfl := Host.Outcome.next.inj h
      rcases mrFinish_cases (mrRounds (getX a s) (roundsLeft s) s.rng) s with ⟨b, e⟩ | ⟨e', e⟩ <;> rw [e] <;>
        exact ⟨rfl, rfl⟩
    · obtain rfl := Host.Outcome.next.inj h; exact ⟨rfl, rfl⟩

/-- Every command's completion keeps the width bound (R21). -/
theorem OperandsFit.exec {i : Instr} {s t : State} (fit : OperandsFit s) (h : exec i s = .next t) : OperandsFit t := by
  cases i with
  | modmul rd ra rb rm =>
    obtain rfl := Host.Outcome.next.inj h
    exact fit.modulusCommand (fun a b m hm hlt => (modmul_lt a b hm).trans hlt) rd ra rb rm
  | modexp rd ra rb rm =>
    obtain rfl := Host.Outcome.next.inj h
    exact fit.modulusCommand (fun a b m hm hlt => powMod_lt hm hlt.le (one_lt_two_pow_width _) a b) rd ra rb rm
  | mrtest ra =>
    obtain ⟨hx, hp⟩ := execMrtest_frame h
    exact fit.congr hx hp

/-! ### Steps -/

/-- No step changes the parameters (R5). -/
theorem StepDid.params_eq {s t : State} (h : StepDid s t) : t.params = s.params := by
  cases h <;> subst t <;> rfl

/-- What a step can have done to the operand registers (R21): nothing, a command's completion, a stored word, or a reset. -/
theorem StepDid.x_cases {s t : State} (h : StepDid s t) :
    t.x = s.x ∨
    (∃ i rest, exec i { s with agenda := rest } = .next t) ∨
    (∃ i k w, k < s.params.words ∧ t.x = (setX i (replaceWord (getX i s) k w) s).x) ∨
    (∃ u, t = blockReset u) := by
  cases h with
  | stored rest i d v turn busy ran eq => exact .inr (.inl ⟨i, rest, ran⟩)
  | wordSet rest i k w inside busy eq => exact .inr (.inr (.inl ⟨i, k, w, inside, by rw [eq]; rfl⟩))
  | softReset rest w move busy srst eq => exact .inr (.inr (.inr ⟨_, eq⟩))
  | hardReset rest move eq => exact .inr (.inr (.inr ⟨_, eq⟩))
  | _ => left; subst t; rfl

/-- Settles O52: the registers change in one of the ways of `StepDid.x_cases`, and each keeps the width bound. -/
theorem operandsFitKept : Obligations.OperandsFitKept := by
  intro s t fit h
  have hp : t.params = s.params := (step_did h).params_eq
  refine ⟨?_, hp⟩
  rcases (step_did h).x_cases with hx | ⟨i, rest, ran⟩ | ⟨i, k, w, inside, hx⟩ | ⟨u, rfl⟩
  · exact fit.congr hx hp
  · have fit' : OperandsFit { s with agenda := rest } := fit.congr rfl rfl
    exact fit'.exec ran
  · exact (fit.setX (replaceWord_lt (fit i) inside w) i).congr hx hp
  · exact operandsFit_blockReset u

end Sys2Proof.Machine
end

section
/-! PROOFS of the family of spec/10_state.md: the registers and flags of the block, acceptance, the engine's step, and what a
step may change of each piece of state. First the rules of a move (forward: what it answers) and of a completion (its frame);
the statements about every step are then case analyses of `step_did`. -/

namespace Sys2Proof.Machine

/-! ### What one move answers -/

/-- The rule of a scheduled move (R250). -/
theorem step_cons {s : State} {m : Move} {rest : List Move} (h : s.agenda = m :: rest) :
    step s = takeMove m { s with agenda := rest } := by
  unfold step stepSystem
  rw [h]

/-- With no move left the engine has its turn (log entry 7). -/
theorem step_nil {s : State} (h : s.agenda = []) : step s = engineTurn s := by
  unfold step stepSystem
  rw [h]

/-- A 32-bit write to the register at an offset of the window. -/
theorem step_write {s : State} {rest : List Move} {off : Nat} {w : Word} {g : Target}
    (h : s.agenda = .write (s.params.base + off) 4 w :: rest) (hg : targetAt s.params off = some g) :
    step s = .next (respond .none (writeTarget g w { s with agenda := rest })) := by
  rw [step_cons h, takeMove, hostWrite, accessTarget_base_add, hg]

/-- A 32-bit read of the register at an offset of the window. -/
theorem step_read {s : State} {rest : List Move} {off : Nat} {g : Target}
    (h : s.agenda = .read (s.params.base + off) 4 :: rest) (hg : targetAt s.params off = some g) :
    step s = .next (respond (.data (readTarget g s)) { s with agenda := rest }) := by
  rw [step_cons h, takeMove, hostRead, accessTarget_base_add, hg]
  cases g <;> rfl

theorem engineTurn_idle {s : State} (hb : s.busy = false) : engineTurn s = .next s := by
  simp [engineTurn, hb]

theorem engineTurn_busy {s : State} (hb : s.busy = true) : engineTurn s = complete s := by
  simp [engineTurn, hb]

/-- The completion of a word that decodes is its command's (R32). -/
theorem complete_of_decode {s : State} {i : Instr} (hd : decode s.lastCmd = .ok i) : complete s = exec i s := by
  simp [complete, hd]

theorem engineTurn_of_decode {s : State} {i : Instr} (hb : s.busy = true) (hd : decode s.lastCmd = .ok i) :
    engineTurn s = exec i s := (engineTurn_busy hb).trans (complete_of_decode hd)

/-! ### The control registers -/

/-- Settles O31: the write reaches `CMD`, and `writeCmd` decides on BUSY and ERR. -/
theorem cmdWriteAcceptsOrDrops : Obligations.CmdWriteAcceptsOrDrops := by
  intro s rest w h
  rw [step_write h (g := .cmd) rfl, writeTarget, writeCmd]
  split <;> rfl

/-- Settles O32: the write reaches `CTRL`, one case for each branch of `writeCtrl`. -/
theorem ctrlWriteActs : Obligations.CtrlWriteActs := by
  intro s rest w h u
  rw [step_write h (g := .ctrl) rfl]
  simp only [writeTarget, writeCtrl, Bool.or_eq_true]
  repeat' split
  all_goals rfl

/-- Settles O33: the write reaches `MR_ITERS`, stored or dropped by BUSY. -/
theorem mrItersWriteStoresOrDrops : Obligations.MrItersWriteStoresOrDrops := by
  intro s rest w h
  rw [step_write h (g := .mrIters) rfl, writeTarget, storeIdle]
  split <;> rfl

/-- Settles O34: one write for each read-only register. -/
theorem readOnlyRegistersIgnoreWrites : Obligations.ReadOnlyRegistersIgnoreWrites := by
  rintro s rest w off (rfl | rfl | rfl) h
  · exact step_write h (g := .status) rfl
  · exact step_write h (g := .paramW) rfl
  · exact step_write h (g := .lastCmd) rfl

/-- `W` is a 32-bit number (R30; log entry 2). -/
theorem width_lt (p : Config.Params) : p.width < 2 ^ 32 := by
  have := p.extraWords.isLt
  simp only [Config.Params.width, Config.Params.words]
  omega

/-- Settles O35: one read for each register. -/
theorem controlRegistersReadBack : Obligations.ControlRegistersReadBack := by
  intro s rest off v hv h
  refine ⟨?_, BitVec.toNat_ofNat _ _ |>.trans (Nat.mod_eq_of_lt (width_lt _))⟩
  simp only [List.mem_cons, Prod.mk.injEq, List.not_mem_nil, or_false] at hv
  rcases hv with ⟨rfl, rfl⟩ | ⟨rfl, rfl⟩ | ⟨rfl, rfl⟩ | ⟨rfl, rfl⟩ | ⟨rfl, rfl⟩ | ⟨rfl, rfl⟩
  · exact step_read h (g := .cmd) rfl
  · exact step_read h (g := .status) rfl
  · exact step_read h (g := .ctrl) rfl
  · exact step_read h (g := .mrIters) rfl
  · exact step_read h (g := .paramW) rfl
  · exact step_read h (g := .lastCmd) rfl

/-- The ERRCODE field of `STATUS` (R24). -/
theorem statusWord_errCode (s : State) : (statusWord s).extractLsb' 8 4 = errCodeBits s.errCode := by
  apply BitVec.eq_of_getLsbD_eq
  intro i hi
  simp only [statusWord, BitVec.getLsbD_extractLsb', BitVec.getLsbD_append]
  interval_cases i <;> simp

/-- Bits 7:0 of `STATUS`, the lowest first (R24). -/
theorem statusWord_low (s : State) (j : Fin 8) :
    (statusWord s).getLsbD j = ![s.busy, s.done, s.err, s.prime, s.hzd, s.rng.isReady, false, false] j := by
  simp only [statusWord, BitVec.getLsbD_append]
  fin_cases j <;> simp

/-- Bits 31:12 of `STATUS` are 0 (R24). -/
theorem statusWord_high (s : State) {j : Nat} (hj : 12 ≤ j) : (statusWord s).getLsbD j = false := by
  simp only [statusWord, BitVec.getLsbD_append]
  iterate 8 rw [if_neg (by omega)]
  exact BitVec.getLsbD_zero

/-- Settles O36: the low byte, the code and the rest. -/
theorem statusWordLayout : Obligations.StatusWordLayout := by
  intro s
  refine ⟨statusWord_low s 0, statusWord_low s 1, statusWord_low s 2, statusWord_low s 3, statusWord_low s 4,
    ?_, ?_, ?_⟩
  · rw [show (statusWord s).getLsbD 5 = s.rng.isReady from statusWord_low s 5, Source.isReady_iff]
  · rw [statusWord_errCode]
    rcases s.errCode with _ | _ | _ | _ | _ | _ <;> rfl
  · rintro j (rfl | rfl | hj)
    · exact statusWord_low s 6
    · exact statusWord_low s 7
    · exact statusWord_high s hj

/-! ### Reset -/

/-- Power-on leaves nothing for a block reset to clear (R35). -/
theorem blockReset_reset : blockReset State.reset = State.reset := rfl

/-- Settles O37 by the values of power-on, the registers' as a block reset of it leaves them. -/
theorem resetValues : Obligations.ResetValues :=
  ⟨fun i => getX_blockReset i State.reset, rfl, rfl, rfl, rfl, rfl, rfl, rfl, rfl, rfl, rfl, rfl⟩

/-- Settles O38: the move is `blockReset`, which the statement writes out. -/
theorem hardResetClearsTheBlock : Obligations.HardResetClearsTheBlock :=
  fun _ _ h => step_cons h

/-! ### The source -/

/-- A call of the host's own, of an idle block with a READY source (R215). -/
theorem hostCall_ready (v : Nat) {s : State} (hb : s.busy = false) (hr : s.rng.state = .ready) :
    hostCall v s = .next (respond (.answer v) { s with rng := s.rng.advance }) := by
  simp [hostCall, hb, hr]

/-- Settles O48: a bit string's number, and a remainder, are in their ranges. -/
theorem hostCallAdvancesTheGenerator : Obligations.HostCallAdvancesTheGenerator := by
  intro s rest m hb hr
  constructor
  · intro h
    exact ⟨s.rng.hostBits m, BitVec.isLt _, (step_cons h).trans (hostCall_ready _ hb hr)⟩
  · intro hm h
    refine ⟨s.rng.hostBelow m, Nat.mod_lt _ hm, ?_⟩
    rw [step_cons h, takeMove, hostBelow, if_neg hm.ne']
    exact hostCall_ready _ hb hr

/-! ### The engine's turn -/

/-- Settles O24: both steps are the engine's turn. -/
theorem stepRunsTheDecodedCommand : Obligations.StepRunsTheDecodedCommand := by
  intro s i rest hb hd
  constructor
  · intro h
    exact (step_cons h).trans (engineTurn_of_decode hb hd)
  · intro h
    rw [step_nil h, engineTurn_of_decode hb hd]

/-- Settles O26: both steps are the turn of an idle engine. -/
theorem idleEngineDoesNothing : Obligations.IdleEngineDoesNothing := by
  intro s rest
  constructor
  · intro hb h
    exact (step_cons h).trans (engineTurn_idle hb)
  · rintro ⟨h, hb⟩
    rw [step_nil h, engineTurn_idle hb]

/-! ### Completions -/

/-- What every completion leaves of the state `s` it started from, in `t` (R32, R206). -/
structure Ended (s t : State) : Prop where
  busy : t.busy = false
  done : t.done = true
  rounds : t.roundsPassed = 0
  hzd : t.hzd = s.hzd
  mrIters : t.mrIters = s.mrIters
  lastCmd : t.lastCmd = s.lastCmd
  params : t.params = s.params
  later : s.rng.After t.rng
  agenda : t.agenda = s.agenda
  response : t.response = s.response

theorem ended_raiseError (e : Error) {s : State} {g : Source} (hg : s.rng.After g) :
    Ended s (raiseError e { s with rng := g }) := ⟨rfl, rfl, rfl, rfl, rfl, rfl, rfl, hg, rfl, rfl⟩

theorem ended_stored (d : RegIdx) (v : Nat) (s : State) : Ended s (succeed (setX d v s)) :=
  ⟨rfl, rfl, rfl, rfl, rfl, rfl, rfl, .refl _, rfl, rfl⟩

theorem ended_judged (b : Bool) {s : State} {g : Source} (hg : s.rng.After g) :
    Ended s (succeed (setPrime b { s with rng := g })) := ⟨rfl, rfl, rfl, rfl, rfl, rfl, rfl, hg, rfl, rfl⟩

/-- Every command ends. -/
theorem exec_ends (i : Instr) (s : State) : ∃ t, exec i s = .next t ∧ Ended s t := by
  obtain ⟨t, ran, ⟨e, g, hg, rfl⟩ | ⟨d, v, rfl⟩ | ⟨ra, b, g, -, hg, rfl⟩⟩ := exec_cases i s
  · exact ⟨_, ran, ended_raiseError e hg⟩
  · exact ⟨_, ran, ended_stored d v s⟩
  · exact ⟨_, ran, ended_judged b hg⟩

theorem exec_ended {i : Instr} {s t : State} (h : exec i s = .next t) : Ended s t := by
  obtain ⟨t', ran, ended⟩ := exec_ends i s
  obtain rfl : t' = t := Host.Outcome.next.inj (ran.symm.trans h)
  exact ended

/-- Every completion ends, of a word that decodes or not (R32, R201). -/
theorem complete_ends (s : State) : ∃ t, complete s = .next t ∧ Ended s t := by
  unfold complete
  split
  · exact exec_ends _ s
  · exact ⟨_, rfl, ended_raiseError .illegalCommand (.refl s.rng)⟩

/-- Settles O28 by the frame of a completion. -/
theorem everyCompletionEnds : Obligations.EveryCompletionEnds := by
  intro s hb
  obtain ⟨t, ran, e⟩ := complete_ends s
  obtain ⟨state, seed, position⟩ := e.later
  exact ⟨t, (engineTurn_busy hb).trans ran, e.busy, e.done, e.rounds, e.hzd, e.mrIters, e.lastCmd, e.params,
    state, seed, position, e.agenda, e.response⟩

/-- Settles O29: an error leaves the registers and PRIME, and a success leaves ERR and ERRCODE. -/
theorem errorCompletionWritesNoResult : Obligations.ErrorCompletionWritesNoResult := by
  intro s t hb he h
  obtain ⟨t', ran, hc⟩ := complete_cases s
  obtain rfl : t' = t := Host.Outcome.next.inj (ran.symm.trans ((engineTurn_busy hb).symm.trans h))
  have success (ok : t'.err = s.err) (code : t'.errCode = s.errCode) :
      (t'.err = true → t'.x = s.x ∧ t'.prime = s.prime ∧ t'.errCode ≠ none) ∧
        (t'.err = false → t'.errCode = s.errCode) :=
    ⟨fun ht => absurd (ok.symm.trans ht) (by simp [he]), fun _ => code⟩
  rcases hc with ⟨e, g, -, rfl⟩ | ⟨d, v, rfl⟩ | ⟨ra, b, g, -, -, rfl⟩
  · exact ⟨fun _ => ⟨rfl, rfl, Option.some_ne_none e⟩, nofun⟩
  · exact success rfl rfl
  · exact success rfl rfl

/-! ### MRTEST, one draw at a time -/

@[simp] theorem inDomain_iff (n : Nat) : inDomain n = true ↔ 5 ≤ n ∧ n % 2 = 1 := by simp [inDomain]

/-- The converse of `drawPending_eq_some`. -/
theorem drawPending_of_mrtest {s : State} {a : RegIdx} (hb : s.busy = true)
    (hd : decode s.lastCmd = .ok (.mrtest (fieldOf a))) (hn : inDomain (getX a s) = true)
    (hl : 0 < roundsLeft s) (hr : s.rng.state = .ready) : drawPending s = some (getX a s) := by
  simp [drawPending, hd, hb, hn, hl, hr]

theorem sourceAnswer_of_pending {s : State} {n : Nat} (h : drawPending s = some n) (d : Nat) :
    sourceAnswer d s = .next (roundStep n d s) := by
  simp [sourceAnswer, h]

/-- A passed round is counted, and the command goes on. -/
theorem roundStep_of_prime {n d : Nat} {s : State} {g : Source} (h : mrTrial n d s.rng = (.prime, g)) :
    roundStep n d s = { s with rng := g, roundsPassed := s.roundsPassed + 1 } := by
  simp [roundStep, h]

/-- A round that does not pass ends the command. -/
theorem roundStep_of_not_prime {n d : Nat} {s : State} {v : Verdict} {g : Source} (h : mrTrial n d s.rng = (v, g))
    (hv : v ≠ .prime) : roundStep n d s = mrFinish (v, g) s := by
  cases v <;> simp_all [roundStep]

/-- A passed round leaves the other rounds to run. -/
theorem mrRounds_succ_of_prime {n : Nat} (k : Nat) {g g' : Source}
    (h : mrTrial n (g.freeAnswer (n - 3)) g = (.prime, g')) : mrRounds n (k + 1) g = mrRounds n k g' := by
  rw [mrRounds, h]

/-- A round that does not pass is the last (R138). -/
theorem mrRounds_succ_of_not_prime {n : Nat} (k : Nat) {g g' : Source} {v : Verdict}
    (h : mrTrial n (g.freeAnswer (n - 3)) g = (v, g')) (hv : v ≠ .prime) :
    mrRounds n (k + 1) g = (v, g') := by
  cases v <;> simp_all [mrRounds]

/-- The end of an MRTEST depends neither on the rounds counted nor on the source before it. -/
theorem mrFinish_of_counted (r : Verdict × Source) (g : Source) (k : Nat) (s : State) :
    mrFinish r { s with rng := g, roundsPassed := k } = mrFinish r s := by
  unfold mrFinish
  split <;> rfl

theorem mrFinish_busy (r : Verdict × Source) (s : State) : (mrFinish r s).busy = false := by
  rcases mrFinish_cases r s with ⟨b, h⟩ | ⟨e, h⟩ <;> rw [h] <;> rfl

/-- The whole completion of an MRTEST on an operand in its domain (R138). -/
theorem complete_mrtest {s : State} {a : RegIdx} (hd : decode s.lastCmd = .ok (.mrtest (fieldOf a)))
    (hn : inDomain (getX a s) = true) :
    complete s = .next (mrFinish (mrRounds (getX a s) (roundsLeft s) s.rng) s) := by
  simp [complete_of_decode hd, exec, execMrtest, hn]

/-- One answered round, then the completion, against the completion at once: the first round is the same in both, and a
passed one leaves the other rounds to run. -/
theorem roundStep_agrees {s : State} {n : Nat} (h : drawPending s = some n) :
    let t := roundStep n (s.rng.freeAnswer (n - 3)) s
    (t.busy = false ∧ complete s = .next t) ∨ (t.busy = true ∧ complete t = complete s) := by
  obtain ⟨hb, hl, -, hn, a, hd, rfl⟩ := drawPending_eq_some h
  obtain ⟨k, hk⟩ := Nat.exists_eq_add_one_of_ne_zero hl.ne'
  intro t
  rcases trial : mrTrial (getX a s) (s.rng.freeAnswer (getX a s - 3)) s.rng with ⟨v, g⟩
  by_cases hv : v = .prime
  · subst hv
    have ht : t = { s with rng := g, roundsPassed := s.roundsPassed + 1 } := roundStep_of_prime trial
    have left : roundsLeft t = k := by
      rw [ht]
      simp only [roundsLeft] at hk ⊢
      omega
    refine .inr ⟨by rw [ht]; exact hb, ?_⟩
    rw [complete_mrtest hd hn, hk, mrRounds_succ_of_prime k trial, ← mrFinish_of_counted _ g (s.roundsPassed + 1) s,
      ← ht, ← left]
    clear_value t
    subst ht
    exact complete_mrtest hd hn
  · have ht : t = mrFinish (v, g) s := roundStep_of_not_prime trial hv
    refine .inl ⟨by rw [ht]; exact mrFinish_busy _ _, ?_⟩
    rw [ht, complete_mrtest hd hn, hk, mrRounds_succ_of_not_prime k trial hv]

/-- Settles O23: the pending draw is answered by one round, and `roundStep_agrees`. -/
theorem splitCompletionAgreesWithTheWhole : Obligations.SplitCompletionAgreesWithTheWhole :=
  fun _ _ h => ⟨_, sourceAnswer_of_pending h _, roundStep_agrees h⟩

/-- A round answered out of range (R205). -/
theorem roundStep_out_of_range {n d : Nat} {s : State} (hr : s.rng.state = .ready) (hd : n - 3 ≤ d) :
    roundStep n d s = raiseError .rngRange { s with rng := s.rng.advance } :=
  roundStep_of_not_prime (mrTrial_out_of_range hr hd) nofun

/-- A round answered in range whose trial finds the operand composite (R138). -/
theorem roundStep_composite {n d : Nat} {s : State} (hr : s.rng.state = .ready) (hd : d < n - 3)
    (trial : mrRound n (decompose n).1 (decompose n).2 (2 + d) = .composite) :
    roundStep n d s = succeed (setPrime false { s with rng := s.rng.advance }) := by
  have round : mrTrial n d s.rng = (.composite, s.rng.advance) := by rw [mrTrial_in_range hr hd, trial]
  exact roundStep_of_not_prime round nofun

/-- A round answered in range whose trial passes (R138). -/
theorem roundStep_pass {n d : Nat} {s : State} (hr : s.rng.state = .ready) (hd : d < n - 3)
    (trial : mrRound n (decompose n).1 (decompose n).2 (2 + d) = .pass) :
    roundStep n d s = { s with rng := s.rng.advance, roundsPassed := s.roundsPassed + 1 } := by
  have round : mrTrial n d s.rng = (.prime, s.rng.advance) := by rw [mrTrial_in_range hr hd, trial]
  exact roundStep_of_prime round

/-- Settles O22: the draw out of range, a composite trial, a passed one. -/
theorem answeredDrawRunsOneRound : Obligations.AnsweredDrawRunsOneRound := by
  intro s rest a d h hb hd h5 hodd hl hr n u
  have pending : drawPending { s with agenda := rest } = some n :=
    drawPending_of_mrtest hb hd ((inDomain_iff n).mpr ⟨h5, hodd⟩) (Nat.sub_pos_of_lt hl) hr
  rw [step_cons h, takeMove, sourceAnswer_of_pending pending]
  congr 1
  by_cases out : n - 3 ≤ d
  · rw [if_pos out]
    exact roundStep_out_of_range hr out
  · rw [if_neg out]
    cases trial : mrRound n (decompose n).1 (decompose n).2 (2 + d)
    · exact roundStep_pass hr (Nat.not_le.mp out) trial
    · exact roundStep_composite hr (Nat.not_le.mp out) trial

/-! ### The invariants of R25 and R33 -/

/-- `FlagsSound` looks at BUSY, DONE, ERR and ERRCODE only. -/
theorem FlagsSound.congr {s t : State} (sound : FlagsSound s) (hb : t.busy = s.busy) (hd : t.done = s.done)
    (he : t.err = s.err) (hc : t.errCode = s.errCode) : FlagsSound t := by
  unfold FlagsSound
  rw [hb, hd, he, hc]
  exact sound

/-- A state without an error is sound when it holds no code and is not both BUSY and DONE. -/
theorem flagsSound_of_no_error {t : State} (he : t.err = false) (hc : t.errCode = none)
    (hd : t.busy = true → t.done = false) : FlagsSound t :=
  ⟨fun hb => ⟨hd hb, he⟩, fun h => absurd (he.symm.trans h) nofun, fun _ => hc⟩

theorem flagsSound_raiseError (e : Error) (s : State) : FlagsSound (raiseError e s) :=
  ⟨nofun, fun _ => ⟨rfl, rfl, Option.some_ne_none e⟩, nofun⟩

theorem flagsSound_blockReset (s : State) : FlagsSound (blockReset s) := flagsSound_of_no_error rfl rfl nofun

/-- Success keeps the absence of an error, which a command in flight has (R25). -/
theorem FlagsSound.succeed {s u : State} (sound : FlagsSound s) (hb : s.busy = true) (he : u.err = s.err)
    (hc : u.errCode = s.errCode) : FlagsSound (succeed u) := by
  obtain ⟨inFlight, -, noCode⟩ := sound
  have ok : s.err = false := (inFlight hb).2
  exact flagsSound_of_no_error (he.trans ok) (hc.trans (noCode ok)) nofun

/-- Settles O51: an error, a success, an acceptance, a clear and a reset each leave sound flags, and every other step leaves the
flags as they are. -/
theorem flagsSoundKept : Obligations.FlagsSoundKept := by
  intro s t sound h
  cases step_did h with
  | failed rest e g turn busy later eq => subst t; exact flagsSound_raiseError e _
  | stored rest i d v turn busy ran eq => subst t; exact sound.succeed busy rfl rfl
  | judged rest ra b g turn busy isMrtest later eq => subst t; exact sound.succeed busy rfl rfl
  | accepted rest w move busy err eq =>
    subst t
    obtain ⟨-, -, noCode⟩ := sound
    exact flagsSound_of_no_error err (noCode err) fun _ => rfl
  | errorCleared rest w move busy clrerr eq => subst t; exact flagsSound_of_no_error rfl rfl fun _ => rfl
  | softReset rest w move busy srst eq => subst t; exact flagsSound_blockReset _
  | hardReset rest move eq => subst t; exact flagsSound_blockReset _
  | _ => subst t; exact sound.congr rfl rfl rfl rfl

/-- `RoundsSound` looks at BUSY, MR_ITERS and the counter only. -/
theorem RoundsSound.congr {s t : State} (sound : RoundsSound s) (hb : t.busy = s.busy) (hm : t.mrIters = s.mrIters)
    (hr : t.roundsPassed = s.roundsPassed) : RoundsSound t := by
  unfold RoundsSound
  rw [hb, hm, hr]
  exact sound

theorem roundsSound_of_zero {t : State} (h : t.roundsPassed = 0) : RoundsSound t :=
  ⟨fun _ => h, h ▸ Nat.zero_le _⟩

/-- Settles O53: a round is counted only while one is left, MR_ITERS is written only while the counter is 0, and the end of a
command, an acceptance and a reset clear the counter. -/
theorem roundsSoundKept : Obligations.RoundsSoundKept := by
  intro s t sound h
  cases step_did h with
  | failed rest e g turn busy later eq => subst t; exact roundsSound_of_zero rfl
  | stored rest i d v turn busy ran eq => subst t; exact roundsSound_of_zero rfl
  | judged rest ra b g turn busy isMrtest later eq => subst t; exact roundsSound_of_zero rfl
  | counted rest g turn busy left later eq =>
    subst t
    exact ⟨fun idle => absurd (busy.symm.trans idle) nofun, left⟩
  | accepted rest w move busy err eq => subst t; exact roundsSound_of_zero rfl
  | itersSet rest w busy eq =>
    subst t
    obtain ⟨whenIdle, -⟩ := sound
    exact roundsSound_of_zero (whenIdle busy)
  | softReset rest w move busy srst eq => subst t; exact roundsSound_of_zero rfl
  | hardReset rest move eq => subst t; exact roundsSound_of_zero rfl
  | _ => subst t; exact sound.congr rfl rfl rfl

/-- Settles O50: power-on is a block reset of itself. -/
theorem resetMeetsTheInvariants : Obligations.ResetMeetsTheInvariants := by
  rw [Obligations.ResetMeetsTheInvariants, ← blockReset_reset]
  exact ⟨flagsSound_blockReset _, operandsFit_blockReset _, roundsSound_of_zero rfl, rfl, rfl⟩

/-! ### What a step may change of each piece of state -/

/-- Settles O49: of the steps of `StepDid` all but two leave the source as it was, or some answers later. -/
theorem onlyLifecycleMovesChangeTheSourceState : Obligations.OnlyLifecycleMovesChangeTheSourceState := by
  intro s t h changed
  cases step_did h with
  | initialised rest seed move busy was eq => subst t; exact .inl ⟨was, rfl, seed, rest, move⟩
  | sourceCleared rest move busy was eq => subst t; exact .inr ⟨was, rfl, rest, move⟩
  | failed rest e g turn busy later eq => subst t; exact absurd later.1 changed
  | judged rest ra b g turn busy isMrtest later eq => subst t; exact absurd later.1 changed
  | counted rest g turn busy left later eq => subst t; exact absurd later.1 changed
  | _ => subst t; exact absurd rfl changed

/-- Settles O54: of the steps of `StepDid` only a verdict and the two resets write PRIME. -/
theorem onlyMrtestAndResetChangePrime : Obligations.OnlyMrtestAndResetChangePrime := by
  intro s t h changed
  cases step_did h with
  | judged rest ra b g turn busy isMrtest later eq => exact .inl ⟨busy, turn, ra, isMrtest⟩
  | hardReset rest move eq => exact .inr (.inl ⟨rest, move⟩)
  | softReset rest w move busy srst eq => exact .inr (.inr ⟨busy, w, rest, move, srst⟩)
  | _ => subst t; exact absurd rfl changed

/-- What a step can have done to LASTCMD (R29). -/
theorem StepDid.lastCmd_cases {s t : State} (h : StepDid s t) :
    t.lastCmd = s.lastCmd ∨
    (s.busy = false ∧ s.err = false ∧ ∃ rest, s.agenda = .write (s.params.base + 0x000) 4 t.lastCmd :: rest) ∨
    (t.lastCmd = 0 ∧ ∃ rest, s.agenda = .hardReset :: rest) ∨
    (t.lastCmd = 0 ∧ s.busy = false ∧
      ∃ w rest, s.agenda = .write (s.params.base + 0x008) 4 w :: rest ∧ w.getLsbD 1 = true) := by
  cases h with
  | accepted rest w move busy err eq => subst t; exact .inr (.inl ⟨busy, err, rest, move⟩)
  | hardReset rest move eq => subst t; exact .inr (.inr (.inl ⟨rfl, rest, move⟩))
  | softReset rest w move busy srst eq => subst t; exact .inr (.inr (.inr ⟨rfl, busy, w, rest, move, srst⟩))
  | _ => left; subst t; rfl

/-- Settles O55: the inversion of a step, and what the three writers of LASTCMD answer. -/
theorem onlyAcceptanceAndResetChangeLastCmd : Obligations.OnlyAcceptanceAndResetChangeLastCmd := by
  intro s t h
  refine ⟨(step_did h).lastCmd_cases, ?_, ?_, ?_⟩
  · intro w rest move hb he
    have ht := Host.Outcome.next.inj (h.symm.trans (cmdWriteAcceptsOrDrops s rest w move))
    rw [ht, if_pos ⟨hb, he⟩]
  · intro rest move
    rw [Host.Outcome.next.inj (h.symm.trans (hardResetClearsTheBlock s rest move))]
  · intro w rest move hb hw
    have ht := Host.Outcome.next.inj (h.symm.trans (ctrlWriteActs s rest w move))
    rw [ht, if_neg (by simp [hb]), if_pos hw]

/-- A step from a command in flight to a command in flight: a round counted, a read, or a host write without effect or
dropped. -/
theorem StepDid.inFlight {s t : State} (h : StepDid s t) (hs : s.busy = true) (ht : t.busy = true) :
    ∃ rest r g n z, (s.hzd = true → z = true) ∧
      t = { s with agenda := rest, response := r, rng := g, roundsPassed := n, hzd := z } := by
  have idle {p : Prop} (hb : s.busy = false) : p := absurd (hs.symm.trans hb) nofun
  cases h with
  | counted rest g turn busy left later eq => exact ⟨rest, s.response, g, s.roundsPassed + 1, s.hzd, id, eq⟩
  | read rest w eq => exact ⟨rest, .data w, s.rng, s.roundsPassed, s.hzd, id, eq⟩
  | ignored rest eq => exact ⟨rest, .none, s.rng, s.roundsPassed, s.hzd, id, eq⟩
  | dropped rest eq => exact ⟨rest, .none, s.rng, s.roundsPassed, true, fun _ => rfl, eq⟩
  | failed rest e g turn busy later eq => subst t; cases ht
  | stored rest i d v turn busy ran eq => subst t; cases ht
  | judged rest ra b g turn busy isMrtest later eq => subst t; cases ht
  | hardReset rest move eq => subst t; cases ht
  | _ => exact idle ‹_›

/-- Settles O56 by what a step can do while a command stays in flight. -/
theorem commandInFlightIsUndisturbed : Obligations.CommandInFlightIsUndisturbed := by
  intro s t hs h ht
  obtain ⟨rest, r, g, n, z, sticky, rfl⟩ := (step_did h).inFlight hs ht
  exact ⟨rfl, rfl, rfl, rfl, rfl, rfl, rfl, sticky⟩

/-- Settles O57: a completion, the hard reset, or a step that keeps BUSY or is possible only without it. -/
theorem onlyCompletionAndHardResetEndACommand : Obligations.OnlyCompletionAndHardResetEndACommand := by
  intro s t hs h ht
  have idle {p : Prop} (hb : s.busy = false) : p := absurd (hs.symm.trans hb) nofun
  cases step_did h with
  | failed rest e g turn busy later eq => subst t; exact .inl ⟨turn, rfl⟩
  | stored rest i d v turn busy ran eq => subst t; exact .inl ⟨turn, rfl⟩
  | judged rest ra b g turn busy isMrtest later eq => subst t; exact .inl ⟨turn, rfl⟩
  | hardReset rest move eq => exact .inr ⟨rest, move⟩
  | counted rest g turn busy left later eq => subst t; exact idle ht
  | read rest w eq => subst t; exact idle ht
  | ignored rest eq => subst t; exact idle ht
  | dropped rest eq => subst t; exact idle ht
  | _ => exact idle ‹_›

/-- Settles O58: of the steps of `StepDid` only the clear and the two resets take HZD down. -/
theorem hazardFlagIsSticky : Obligations.HazardFlagIsSticky := by
  intro s t h hs ht
  cases step_did h with
  | hardReset rest move eq => exact .inl ⟨rest, move⟩
  | softReset rest w move busy srst eq => exact .inr ⟨busy, w, rest, move, .inr srst⟩
  | errorCleared rest w move busy clrerr eq => exact .inr ⟨busy, w, rest, move, .inl clrerr⟩
  | dropped rest eq => subst t; cases ht
  | _ => subst t; exact absurd (hs.symm.trans ht) nofun

/-! ### Issuing a command -/

/-- A step of a run. -/
theorem runFor_succ {n : Nat} {s t : State} (h : step s = .next t) : runFor (n + 1) s = runFor n t := by
  rw [runFor, show stepSystem s = .next t from h]

theorem runFor_one (s : State) : runFor 1 s = step s := by
  rw [runFor, step]
  cases stepSystem s <;> rfl

/-- The word of a command decodes to the command (R97). -/
theorem decode_encode_of_wellFormed {i : Instr} (wf : i.WellFormed) : decode (encode i) = .ok i := by
  cases i with
  | modmul rd ra rb rm => simp [decode, encode, decodeFour, wf]
  | modexp rd ra rb rm => simp [decode, encode, decodeFour, wf]
  | mrtest ra =>
    have legal : fieldLegal ra = true := wf
    simp [decode, encode, legal]

/-- The state a `CMD` write of a command's word leaves while no command is in flight and no error held (R26). -/
def issued (i : Instr) (s : State) : State := respond .none (accept (encode i) s)

/-- `issue` (R97), scheduled before the moves `ms`. -/
theorem step_issue {s : State} (i : Instr) (ms : List Move) (hb : s.busy = false) (he : s.err = false) :
    step (schedule (issue s.params i ++ ms) s) = .next (issued i (schedule ms s)) := by
  have move : (schedule (issue s.params i ++ ms) s).agenda =
      .write (s.params.base + 0x000) 4 (encode i) :: (ms ++ s.agenda) := rfl
  rw [cmdWriteAcceptsOrDrops _ _ _ move, if_pos ⟨hb, he⟩]
  rfl

/-- The engine's turn with a command's word in flight runs that command. -/
theorem step_engine_of_word {s : State} {i : Instr} {rest : List Move} (wf : i.WellFormed) (hb : s.busy = true)
    (hc : s.lastCmd = encode i) (h : s.agenda = .engine :: rest) : step s = exec i { s with agenda := rest } :=
  (stepRunsTheDecodedCommand s i rest hb (by rw [hc, decode_encode_of_wellFormed wf])).1 h

/-- A poll of `wait` (R97). -/
theorem step_wait {s : State} {rest : List Move} (h : s.agenda = .wait :: rest) :
    step s = .next { s with
      response := .data (statusWord s), agenda := if s.busy = true then whileWaiting rest else rest } := by
  rw [step_cons h, takeMove, hostWait_eq]
  rfl

/-- The poll of `wait` that ends it. -/
theorem step_wait_idle {s : State} {rest : List Move} (hb : s.busy = false) (h : s.agenda = .wait :: rest) :
    step s = .next { s with agenda := rest, response := .data (statusWord s) } := by
  rw [step_wait h, if_neg (by simp [hb])]

/-- Where no other agent is scheduled first, a wait gives the engine its turn (log entry 25). -/
theorem whileWaiting_of_host {ms : List Move} (h : ∀ m rest, ms = m :: rest → m.isHost = true) :
    whileWaiting ms = .engine :: .wait :: ms := by
  cases ms with
  | nil => rfl
  | cons m rest => simp [whileWaiting, h m rest rfl]

/-- A wait for a command in flight, with no other agent scheduled first: a poll that sees BUSY = 1, the engine's turn, and a
poll that sees BUSY = 0. -/
theorem runFor_waiting {s t : State} {i : Instr} {ms : List Move} (wf : i.WellFormed) (hb : s.busy = true)
    (hc : s.lastCmd = encode i) (host : ∀ m rest, ms = m :: rest → m.isHost = true) (h : s.agenda = .wait :: ms)
    (ran : exec i s = .next t) :
    runFor 3 s = .next { t with agenda := ms, response := .data (statusWord t) } := by
  have poll : step s = .next { s with
      agenda := .engine :: .wait :: ms, response := .data (statusWord s) } := by
    rw [step_wait h, if_pos hb, whileWaiting_of_host host]
  have turn : step { s with agenda := .engine :: .wait :: ms, response := .data (statusWord s) } =
      .next { t with agenda := .wait :: ms, response := .data (statusWord s) } :=
    Eq.trans (step_engine_of_word wf hb hc rfl) (exec_withHost i (.wait :: ms) (.data (statusWord s)) ran :)
  rw [runFor_succ poll, runFor_succ turn, runFor_one]
  exact step_wait_idle (exec_ended ran).busy rfl

/-- Settles O27: a bare command line is the acceptance and then a wait for the command in flight. -/
theorem issuedCommandRuns : Obligations.IssuedCommandRuns := by
  refine ⟨?_, fun s rest h => step_wait h, ?_⟩
  · intro s i wf hb he
    rw [runFor_succ (step_issue i [.engine] hb he), runFor_one]
    exact step_engine_of_word wf rfl rfl rfl
  · intro s i wf hb he host
    obtain ⟨t, ran, ended⟩ := exec_ends i { s with lastCmd := encode i, busy := true, done := false, roundsPassed := 0 }
    have moves : t.agenda = s.agenda := ended.agenda
    have ran' : exec i (issued i (schedule wait s)) = .next { t with agenda := wait ++ s.agenda, response := .none } :=
      (exec_withHost i (wait ++ s.agenda) .none ran :)
    refine ⟨t, ran, ended.busy, ?_⟩
    rw [commandLine, runFor_succ (step_issue i wait hb he), runFor_waiting wf rfl rfl host rfl ran', ← moves]
    rfl

end Sys2Proof.Machine
end

section
/-! PROOFS of the family of spec/20_memory.md: the host's window. First the address map, as what an access reaches; then what a
read and a write of an operand word answer, and a run of such writes (R76); and last which moves stop a run. -/

namespace Sys2Proof.Machine

/-! ### The address map -/

/-- `W / 32` bus words make an operand register (R5). -/
theorem width_div_32 (p : Config.Params) : p.width / 32 = p.words := by
  simp [Config.Params.width]

/-- An operand register takes `W / 8` bytes of the window (R61). -/
theorem width_div_8 (p : Config.Params) : p.width / 8 = 4 * p.words := by
  simp only [Config.Params.width]
  omega

/-- The offset of an operand word as R61 writes it. -/
theorem operandOffset_eq (p : Config.Params) (i : RegIdx) (k : Nat) :
    operandOffset p i k = 0x1000 + i * (p.width / 8) + 4 * k := by
  rw [operandOffset, width_div_8]

/-- The bus address of an operand word as R61 writes it. -/
theorem operandAddress_eq (p : Config.Params) (i : RegIdx) (k : Nat) :
    p.base + 0x1000 + i * (p.width / 8) + 4 * k = p.base + operandOffset p i k := by
  rw [operandOffset_eq]
  omega

theorem targetAt_eq_operand_iff (p : Config.Params) (i : RegIdx) (k off : Nat) :
    targetAt p off = some (.operand i k) ↔ k < p.words ∧ off = operandOffset p i k := by
  constructor
  · intro h
    rcases targetAt_eq_some h with ⟨-, e⟩ | ⟨-, e⟩ | ⟨-, e⟩ | ⟨-, e⟩ | ⟨-, e⟩ | ⟨-, e⟩ | ⟨j, l, e, hl, hoff⟩ <;> cases e
    exact ⟨hl, hoff⟩
  · rintro ⟨hk, rfl⟩
    exact targetAt_operandOffset p i hk

/-- Settles O39: `W / 32` and `W / 8` are the words and the bytes of a register. -/
theorem operandWindowMap : Obligations.OperandWindowMap := by
  intro p i k off
  rw [targetAt_eq_operand_iff, operandOffset_eq, width_div_32]

/-- An operand word is an aligned one between the window's bounds. -/
theorem operandOffset_bounds {p : Config.Params} (i : RegIdx) {k : Nat} (hk : k < p.words) :
    operandOffset p i k % 4 = 0 ∧ 0x1000 ≤ operandOffset p i k ∧ operandOffset p i k < 0x1000 + p.width := by
  have hi : i * p.words ≤ 7 * p.words := Nat.mul_le_mul_right _ (Nat.le_of_lt_succ i.isLt)
  have bytes : i * (4 * p.words) = 4 * (i * p.words) := by ring
  simp only [operandOffset, Config.Params.width, bytes]
  omega

/-- Every aligned offset between the window's bounds is an operand word's: quotient and remainder by the bytes of a
register. -/
theorem exists_operandOffset {p : Config.Params} {off : Nat} (h4 : off % 4 = 0) (hlo : 0x1000 ≤ off)
    (hhi : off < 0x1000 + p.width) : ∃ (i : RegIdx) (k : Nat), k < p.words ∧ off = operandOffset p i k := by
  have hw : 0 < 4 * p.words := Nat.mul_pos four_pos (words_pos p)
  have hi : (off - 0x1000) / (4 * p.words) < 8 := by
    rw [Nat.div_lt_iff_lt_mul hw]
    simp only [Config.Params.width] at hhi
    omega
  have hr : (off - 0x1000) % (4 * p.words) < 4 * p.words := Nat.mod_lt _ hw
  have hr4 : (off - 0x1000) % (4 * p.words) % 4 = (off - 0x1000) % 4 := Nat.mod_mod_of_dvd _ ⟨_, rfl⟩
  have hdiv := Nat.div_add_mod' (off - 0x1000) (4 * p.words)
  refine ⟨⟨_, hi⟩, (off - 0x1000) % (4 * p.words) / 4, by omega, ?_⟩
  simp only [operandOffset]
  omega

/-- A register stands at an offset exactly when it is aligned and in one of the two defined ranges (R61 to R63). -/
theorem targetAt_isSome_iff (p : Config.Params) (off : Nat) :
    (targetAt p off).isSome = true ↔ off % 4 = 0 ∧ (off ≤ 0x014 ∨ (0x1000 ≤ off ∧ off < 0x1000 + p.width)) := by
  constructor
  · intro h
    obtain ⟨t, ht⟩ := Option.isSome_iff_exists.mp h
    rcases targetAt_eq_some ht with ⟨rfl, -⟩ | ⟨rfl, -⟩ | ⟨rfl, -⟩ | ⟨rfl, -⟩ | ⟨rfl, -⟩ | ⟨rfl, -⟩ | ⟨i, k, -, hk, rfl⟩
    case inr.inr.inr.inr.inr.inr =>
      obtain ⟨h4, hlo, hhi⟩ := operandOffset_bounds i hk
      exact ⟨h4, .inr ⟨hlo, hhi⟩⟩
    all_goals exact ⟨by decide, .inl (by decide)⟩
  · rintro ⟨h4, hlow | ⟨hlo, hhi⟩⟩
    · obtain rfl | rfl | rfl | rfl | rfl | rfl :
        off = 0x000 ∨ off = 0x004 ∨ off = 0x008 ∨ off = 0x00C ∨ off = 0x010 ∨ off = 0x014 := by omega
      all_goals rfl
    · obtain ⟨i, k, hk, rfl⟩ := exists_operandOffset h4 hlo hhi
      rw [targetAt_operandOffset p i hk]
      rfl

/-- Settles O40: the size, the base, and the offsets at which a register stands. -/
theorem accessAdmittedExactlyInTheWindow : Obligations.AccessAdmittedExactlyInTheWindow := by
  intro p addr size
  rw [← targetAt_isSome_iff, ← and_assoc, accessTarget]
  by_cases reaches : size = 4 ∧ p.base ≤ addr
  · rw [if_pos reaches, and_iff_right reaches]
  · rw [if_neg reaches, iff_false_right fun h => reaches h.1]
    exact Bool.false_ne_true

/-! ### Accesses -/

/-- A read of a register of the window. -/
theorem step_read_of_target {s : State} {rest : List Move} {addr size : Nat} {g : Target}
    (h : s.agenda = .read addr size :: rest) (hg : accessTarget s.params addr size = some g) :
    step s = .next (respond (.data (readTarget g s)) { s with agenda := rest }) := by
  obtain ⟨rfl, hb, ht⟩ := accessTarget_eq_some hg
  exact step_read (by rw [h, Nat.add_sub_cancel' hb]) ht

/-- A write of a register of the window. -/
theorem step_write_of_target {s : State} {rest : List Move} {addr size : Nat} {w : Word} {g : Target}
    (h : s.agenda = .write addr size w :: rest) (hg : accessTarget s.params addr size = some g) :
    step s = .next (respond .none (writeTarget g w { s with agenda := rest })) := by
  obtain ⟨rfl, hb, ht⟩ := accessTarget_eq_some hg
  exact step_write (by rw [h, Nat.add_sub_cancel' hb]) ht

/-- A read outside what the window defines. -/
theorem step_read_of_none {s : State} {rest : List Move} {addr size : Nat}
    (h : s.agenda = .read addr size :: rest) (hg : accessTarget s.params addr size = none) :
    step s = .fault .busError := by
  rw [step_cons h, takeMove, hostRead, hg]

/-- A write outside what the window defines. -/
theorem step_write_of_none {s : State} {rest : List Move} {addr size : Nat} {w : Word}
    (h : s.agenda = .write addr size w :: rest) (hg : accessTarget s.params addr size = none) :
    step s = .fault .busError := by
  rw [step_cons h, takeMove, hostWrite, hg]

/-- Settles O41: by O40 such an access reaches no register. -/
theorem inadmissibleAccessIsABusError : Obligations.InadmissibleAccessIsABusError := by
  intro s rest addr size w bad
  have hg : accessTarget s.params addr size = none := by
    rw [← Option.not_isSome_iff_eq_none, accessAdmittedExactlyInTheWindow]
    omega
  exact ⟨fun h => step_read_of_none h hg, fun h => step_write_of_none h hg⟩

/-- Settles O42: the read reaches the word, which is the register's quotient modulo `2^32`. -/
theorem operandReadReturnsTheWord : Obligations.OperandReadReturnsTheWord := by
  intro s rest i k hk h
  rw [operandAddress_eq] at h
  exact ⟨wordOf (getX i s) k, step_read h (targetAt_operandOffset _ i hk), BitVec.toNat_ofNat _ _⟩

/-- Settles O43: a read that completes is an admitted one. -/
theorem readsHaveNoSideEffect : Obligations.ReadsHaveNoSideEffect := by
  intro s t rest addr size h ran
  cases hg : accessTarget s.params addr size with
  | none =>
    rw [step_read_of_none h hg] at ran
    cases ran
  | some g =>
    rw [step_read_of_target h hg] at ran
    exact ⟨readTarget g s, (Host.Outcome.next.inj ran).symm⟩

/-- A write of an operand word while no command is in flight (R66). -/
theorem step_operandWrite_idle {s : State} {rest : List Move} {i : RegIdx} {k : Nat} {w : Word} (hb : s.busy = false)
    (hk : k < s.params.words) (h : s.agenda = .write (s.params.base + operandOffset s.params i k) 4 w :: rest) :
    step s = .next { s with
      agenda := rest, response := .none, x := s.x.set i (replaceWord (getX i s) k w) } := by
  rw [step_write h (targetAt_operandOffset _ i hk), writeTarget, storeIdle, if_neg (by simp [hb])]
  rfl

/-- A write of an operand word while a command is in flight (R67). -/
theorem step_operandWrite_busy {s : State} {rest : List Move} {i : RegIdx} {k : Nat} {w : Word} (hb : s.busy = true)
    (hk : k < s.params.words) (h : s.agenda = .write (s.params.base + operandOffset s.params i k) 4 w :: rest) :
    step s = .next { s with agenda := rest, response := .none, hzd := true } := by
  rw [step_write h (targetAt_operandOffset _ i hk), writeTarget, storeIdle, if_pos hb]
  rfl

/-- Settles O44: the write is dropped or replaces the word, by BUSY; the bits are those of `replaceWord`. -/
theorem operandWriteReplacesOneWord : Obligations.OperandWriteReplacesOneWord := by
  intro s rest i k v hk h
  rw [operandAddress_eq] at h
  exact ⟨fun hb => step_operandWrite_busy hb hk h,
    fun hb => ⟨_, step_operandWrite_idle hb hk h, replaceWord_testBit (getX i s) k v⟩⟩

/-! ### Loading a register word by word (R76) -/

/-- What writing the words `ks` of `v`, in this order, leaves of a register that held `u`. -/
def loadWords (v : Nat) (ks : List Nat) (u : Nat) : Nat := ks.foldl (fun y k => replaceWord y k (wordOf v k)) u

@[simp] theorem loadWords_nil (v u : Nat) : loadWords v [] u = u := rfl

@[simp] theorem loadWords_cons (v k : Nat) (ks : List Nat) (u : Nat) :
    loadWords v (k :: ks) u = loadWords v ks (replaceWord u k (wordOf v k)) := rfl

theorem wordOf_getLsbD (v k : Nat) {j : Nat} (hj : j < 32) : (wordOf v k).getLsbD j = v.testBit (32 * k + j) := by
  rw [wordOf, BitVec.getLsbD_ofNat, Nat.testBit_div_two_pow, Nat.add_comm]
  simp [hj]

/-- The bits of the words written are `v`'s, in whatever order they were written, and the others stay. -/
theorem loadWords_testBit (v : Nat) (ks : List Nat) (u b : Nat) :
    (loadWords v ks u).testBit b = if b / 32 ∈ ks then v.testBit b else u.testBit b := by
  induction ks generalizing u with
  | nil => simp
  | cons k ks ih =>
    rw [loadWords_cons, ih]
    by_cases later : b / 32 ∈ ks
    · simp [later]
    · rw [if_neg later, replaceWord_testBit]
      by_cases here : b / 32 = k
      · rw [if_pos (by omega), if_pos (by simp [here]), wordOf_getLsbD v k (by omega)]
        congr 1
        omega
      · rw [if_neg (by omega), if_neg (by simp [here, later])]

/-- Writing every word of a register leaves the value. -/
theorem loadWords_range {n u v : Nat} (hu : u < 2 ^ (32 * n)) (hv : v < 2 ^ (32 * n)) :
    loadWords v (List.range n) u = v := by
  refine Nat.eq_of_testBit_eq fun b => ?_
  rw [loadWords_testBit]
  by_cases inside : b / 32 < n
  · rw [if_pos (List.mem_range.mpr inside)]
  · rw [if_neg (inside ∘ List.mem_range.mp)]
    have above : 2 ^ (32 * n) ≤ 2 ^ b := Nat.pow_le_pow_right (by decide) (by omega)
    rw [Nat.testBit_lt_two_pow (hu.trans_le above), Nat.testBit_lt_two_pow (hv.trans_le above)]

/-- The writes of the words `ks` of `v` to `x[i]`. -/
def wordWrites (p : Config.Params) (i : RegIdx) (v : Nat) (ks : List Nat) : List Move :=
  ks.map fun k => .write (p.base + operandOffset p i k) 4 (wordOf v k)

theorem ldreg_eq (p : Config.Params) (i : RegIdx) (v : Nat) :
    ldreg p i v = wordWrites p i v (List.range p.words) := rfl

/-- A run of word writes to an idle block: by induction on the words, one step of `step_operandWrite_idle` for each. -/
theorem runFor_wordWrites {s : State} (i : RegIdx) (v : Nat) (ks : List Nat) (hb : s.busy = false)
    (hks : ∀ k ∈ ks, k < s.params.words) :
    runFor ks.length (schedule (wordWrites s.params i v ks) s) = .next { s with
      x := s.x.set i (loadWords v ks (getX i s)), response := if ks = [] then s.response else .none } := by
  induction ks generalizing s with
  | nil => simp [runFor, wordWrites, schedule, getX]
  | cons k ks ih =>
    let u : State := respond .none (setX i (replaceWord (getX i s) k (wordOf v k)) s)
    have first : step (schedule (wordWrites s.params i v (k :: ks)) s) =
        .next (schedule (wordWrites s.params i v ks) u) :=
      step_operandWrite_idle hb (hks k List.mem_cons_self) rfl
    have others := ih (s := u) hb fun l hl => hks l (List.mem_cons_of_mem k hl)
    rw [List.length_cons, runFor_succ first]
    refine others.trans ?_
    simp [u, respond, setX, getX]

/-- Settles O45: the run of the words in ascending order writes every word, and there is at least one. -/
theorem loadRegLeavesTheValue : Obligations.LoadRegLeavesTheValue := by
  intro s i v hb fit hv
  have run := runFor_wordWrites i v (List.range s.params.words) hb fun k hk => List.mem_range.mp hk
  rw [List.length_range, loadWords_range (fit i) hv, if_neg (by simp [(words_pos s.params).ne']), ← ldreg_eq] at run
  exact run

/-! ### A torn read (R68) -/

/-- The spec's example at `W = 64`: a MODEXP to `x[3]` in flight, with the operands of R121. -/
def beforeTornRead : State :=
  { State.powerOn ⟨1, 0⟩ with
    x := #v[4, 13, 497, 0xFFFFFFFF00000001, 0, 0, 0, 0], busy := true, lastCmd := 0x02301200 }

/-- Settles O46: the first word is read, the command completes, the second word is read. -/
theorem tornReadCanHappen : Obligations.TornReadCanHappen :=
  ⟨beforeTornRead, _, _, rfl, rfl, rfl, rfl, rfl, rfl, rfl, rfl⟩

/-! ### The moves that stop a run -/

/-- No turn of the engine stops a run. -/
theorem engineTurn_next (s : State) : ∃ t, engineTurn s = .next t := by
  cases hb : s.busy with
  | false => exact ⟨s, engineTurn_idle hb⟩
  | true =>
    obtain ⟨t, ran, -⟩ := complete_ends s
    exact ⟨t, (engineTurn_busy hb).trans ran⟩

/-- The outcome `o` is a next state, or a refusal for the reason `why`. -/
def AnswersUnless (o : Host.Outcome State Fault Refusal) (why : Prop) : Prop :=
  (∃ t, o = .next t) ∨ ((∃ r, o = .refused r) ∧ why)

/-- The guard the host's moves on the source share: not while BUSY, and only where `allowed` (R214, R215, R251). -/
theorem answersUnless_guarded {b : Bool} {allowed : Prop} [Decidable allowed] {t : State} {r r' : Refusal} :
    AnswersUnless (if b then .refused r else if allowed then .next t else .refused r') (b = true ∨ ¬allowed) := by
  by_cases hb : b = true
  · exact .inr ⟨⟨r, if_pos hb⟩, .inl hb⟩
  · rw [if_neg hb]
    by_cases ha : allowed
    · exact .inl ⟨t, if_pos ha⟩
    · exact .inr ⟨⟨r', if_neg ha⟩, .inr ha⟩

theorem hostInit_answersUnless (seed : Nat) (s : State) :
    AnswersUnless (hostInit seed s) (s.busy = true ∨ s.rng.state ≠ .uninit) := answersUnless_guarded

theorem hostClear_answersUnless (s : State) :
    AnswersUnless (hostClear s) (s.busy = true ∨ s.rng.state ≠ .ready) := answersUnless_guarded

theorem hostCall_answersUnless (v : Nat) (s : State) :
    AnswersUnless (hostCall v s) (s.busy = true ∨ s.rng.state ≠ .ready) := by
  rw [Ne, ← Source.isReady_iff]
  exact answersUnless_guarded

theorem hostBelow_answersUnless (bound : Nat) (s : State) :
    AnswersUnless (hostBelow bound s) (bound = 0 ∨ s.busy = true ∨ s.rng.state ≠ .ready) := by
  unfold hostBelow
  by_cases hz : bound = 0
  · exact .inr ⟨⟨.emptyRange, if_pos hz⟩, .inl hz⟩
  · rw [if_neg hz]
    exact (hostCall_answersUnless _ s).imp_right (.imp_right .inr)

theorem sourceAnswer_answersUnless (d : Nat) (s : State) :
    AnswersUnless (sourceAnswer d s) (drawPending s = none) := by
  cases hp : drawPending s with
  | none => exact .inr ⟨⟨.unsolicitedAnswer, by simp [sourceAnswer, hp]⟩, rfl⟩
  | some n => exact .inl ⟨_, sourceAnswer_of_pending hp d⟩

/-- A move that stops the run, and not by a fault, is refused for its reason. -/
theorem refused_of_stops {s : State} {m : Move} {rest : List Move} {why : Prop} (h : s.agenda = m :: rest)
    (stops : ∀ t, step s ≠ .next t) (outcome : AnswersUnless (takeMove m { s with agenda := rest }) why) :
    (∃ r, step s = .refused r) ∧ why := by
  rw [step_cons h] at stops ⊢
  obtain ⟨t, ht⟩ | refusal := outcome
  · exact absurd ht (stops t)
  · exact refusal

/-- Settles O60: of the moves the engine's turn, a wait and a reset always answer, an access that stops is not admitted, and
the other moves are refused for the reason of their `AnswersUnless`. -/
theorem onlyInadmissibleMovesStopTheRun : Obligations.OnlyInadmissibleMovesStopTheRun := by
  intro s stops
  cases h : s.agenda with
  | nil =>
    obtain ⟨t, ht⟩ := engineTurn_next s
    exact absurd ((step_nil h).trans ht) (stops t)
  | cons m rest =>
    refine ⟨m, rest, rfl, ?_⟩
    cases m with
    | read addr size =>
      cases hg : accessTarget s.params addr size with
      | none => exact .inl ⟨step_read_of_none h hg, addr, size, hg, .inl rfl⟩
      | some g => exact absurd (step_read_of_target h hg) (stops _)
    | write addr size w =>
      cases hg : accessTarget s.params addr size with
      | none => exact .inl ⟨step_write_of_none h hg, addr, size, hg, .inr ⟨w, rfl⟩⟩
      | some g => exact absurd (step_write_of_target h hg) (stops _)
    | wait => exact absurd (step_wait h) (stops _)
    | hardReset => exact absurd (step_cons h) (stops _)
    | engine =>
      obtain ⟨t, ht⟩ := engineTurn_next { s with agenda := rest }
      exact absurd ((step_cons h).trans ht) (stops t)
    | rngInit seed =>
      obtain ⟨refused, why⟩ := refused_of_stops h stops (hostInit_answersUnless seed _)
      exact .inr ⟨refused, .inl ⟨⟨seed, rfl⟩, why⟩⟩
    | rngClear =>
      obtain ⟨refused, why⟩ := refused_of_stops h stops (hostClear_answersUnless _)
      exact .inr ⟨refused, .inr (.inl ⟨rfl, why⟩)⟩
    | rngBelow bound =>
      obtain ⟨refused, why⟩ := refused_of_stops h stops (hostBelow_answersUnless bound _)
      exact .inr ⟨refused, .inr (.inr (.inl ⟨bound, rfl, why⟩))⟩
    | rngBits n =>
      obtain ⟨refused, why⟩ := refused_of_stops h stops (hostCall_answersUnless (s.rng.hostBits n) _)
      exact .inr ⟨refused, .inr (.inr (.inr (.inl ⟨⟨n, rfl⟩, why⟩)))⟩
    | answer d =>
      obtain ⟨refused, why⟩ := refused_of_stops h stops (sourceAnswer_answersUnless d _)
      exact .inr ⟨refused, .inr (.inr (.inr (.inr ⟨⟨d, rfl⟩, why⟩)))⟩

end Sys2Proof.Machine
end

section
/-! PROOFS of the family of spec/30_encoding.md: decoding and encoding invert each other, decoding against the match and mask
columns of R93, and the round trip of the pseudo-instructions `encrypt` and `decrypt` (R98). -/

namespace Sys2Proof.Machine

/-! ### Decoding and encoding -/

/-- Settles O1: each of the ten words is decoded. -/
theorem wordsFromTheOpcodeMapDecode : Obligations.WordsFromTheOpcodeMapDecode := by
  unfold Obligations.WordsFromTheOpcodeMapDecode
  decide

/-- Settles O2: one case for each row of the opcode map. -/
theorem decodeOfEncodeIsTheCommand : Obligations.DecodeOfEncodeIsTheCommand :=
  fun _ => decode_encode_of_wellFormed

/-- A four-operand opcode decodes only to its own command, with the fields of the word, all legal. -/
theorem decodeFour_eq_ok {mk : Field → Field → Field → Field → Instr} {c : Word} {i : Instr}
    (h : decodeFour mk c = .ok i) : i = mk (rdOf c) (raOf c) (rbOf c) (rmOf c) ∧ i.WellFormed := by
  unfold decodeFour at h
  split at h
  · rename_i legal
    obtain rfl := Except.ok.inj h
    exact ⟨rfl, legal⟩
  · cases h

/-- The inversion of decoding (R96): a legal command, its opcode and its fields read from the word, all other bits 0. -/
theorem decode_eq_ok {c : Word} {i : Instr} (h : decode c = .ok i) :
    zeroOf c = 0 ∧ i.WellFormed ∧
      ((opcodeOf c = 0x01 ∧ i = .modmul (rdOf c) (raOf c) (rbOf c) (rmOf c)) ∨
       (opcodeOf c = 0x02 ∧ i = .modexp (rdOf c) (raOf c) (rbOf c) (rmOf c)) ∨
       (opcodeOf c = 0x03 ∧ (rdOf c = 0 ∧ rbOf c = 0 ∧ rmOf c = 0) ∧ i = .mrtest (raOf c))) := by
  unfold decode at h
  split at h
  · cases h
  rename_i zero
  refine ⟨not_not.mp zero, ?_⟩
  split at h
  · rename_i op
    obtain ⟨rfl, wf⟩ := decodeFour_eq_ok h
    exact ⟨wf, .inl ⟨op, rfl⟩⟩
  split at h
  · rename_i op
    obtain ⟨rfl, wf⟩ := decodeFour_eq_ok h
    exact ⟨wf, .inr (.inl ⟨op, rfl⟩)⟩
  split at h
  · rename_i op
    split at h
    · cases h
    split at h
    · cases h
    rename_i legal unused
    obtain rfl := Except.ok.inj h
    simp only [not_or, not_not] at unused
    exact ⟨Bool.eq_true_of_not_eq_false legal, .inr (.inr ⟨op, unused, rfl⟩)⟩
  · cases h

/-- Settles O3: the inversion of decoding, and a word is its fields put together. -/
theorem encodeOfDecodeIsTheWord : Obligations.EncodeOfDecodeIsTheWord := by
  intro c i h
  obtain ⟨zero, wf, fields⟩ := decode_eq_ok h
  refine ⟨wf, ?_⟩
  rw [← formatC_of_fields c zero]
  rcases fields with ⟨op, rfl⟩ | ⟨op, rfl⟩ | ⟨op, ⟨hd, hb, hm⟩, rfl⟩
  · rw [op]; rfl
  · rw [op]; rfl
  · rw [op, hd, hb, hm]; rfl

/-! ### The match and mask columns -/

/-- A word that decodes lies in the row of its command (R93): it is the command's word. -/
theorem rowMatch_of_decode {c : Word} {i : Instr} (h : decode c = .ok i) : c &&& rowMask i = rowMatch i := by
  obtain ⟨wf, rfl⟩ := encodeOfDecodeIsTheWord c i h
  cases i with
  | modmul rd ra rb rm => exact Laws.RowPattern.modmul rd ra rb rm wf
  | modexp rd ra rb rm => exact Laws.RowPattern.modexp rd ra rb rm wf
  | mrtest ra => exact Laws.RowPattern.mrtest ra wf

/-- Masking a word masks each of its fields. -/
theorem fields_and (c d : Word) :
    opcodeOf (c &&& d) = opcodeOf c &&& opcodeOf d ∧ rdOf (c &&& d) = rdOf c &&& rdOf d ∧
      raOf (c &&& d) = raOf c &&& raOf d ∧ rbOf (c &&& d) = rbOf c &&& rbOf d ∧
      rmOf (c &&& d) = rmOf c &&& rmOf d ∧ zeroOf (c &&& d) = zeroOf c &&& zeroOf d :=
  ⟨BitVec.extractLsb'_and, BitVec.extractLsb'_and, BitVec.extractLsb'_and, BitVec.extractLsb'_and,
    BitVec.extractLsb'_and, BitVec.extractLsb'_and⟩

/-- A field that is 0 under the mask of a used field, `0b1000`, is legal (R91, R93). -/
theorem fieldLegal_of_and_eight {f : Field} (h : f &&& 8 = 0) : fieldLegal f = true := by
  revert f; decide

/-- A word that matches the row of a four-operand command is put together from that opcode and legal fields. -/
theorem formatC_of_match_four {c : Word} {o : BitVec 8} (h : c &&& 0xFF8888FF = formatC o 0 0 0 0) :
    formatC o (rdOf c) (raOf c) (rbOf c) (rmOf c) = c ∧
      fieldLegal (rdOf c) = true ∧ fieldLegal (raOf c) = true ∧ fieldLegal (rbOf c) = true ∧
      fieldLegal (rmOf c) = true := by
  obtain ⟨op, rd, ra, rb, rm, zero⟩ := fields_and c 0xFF8888FF
  rw [h] at op rd ra rb rm zero
  simp only [opcodeOf_formatC, rdOf_formatC, raOf_formatC, rbOf_formatC, rmOf_formatC, zeroOf_formatC]
    at op rd ra rb rm zero
  have hop : opcodeOf c = o := (op.trans BitVec.and_allOnes).symm
  have hzero : zeroOf c = 0 := (zero.trans BitVec.and_allOnes).symm
  refine ⟨?_, fieldLegal_of_and_eight rd.symm, fieldLegal_of_and_eight ra.symm, fieldLegal_of_and_eight rb.symm,
    fieldLegal_of_and_eight rm.symm⟩
  rw [← hop]
  exact formatC_of_fields c hzero

/-- A word that matches the row of MRTEST is put together from its opcode and a legal `ra` (R93). -/
theorem encode_mrtest_of_match {c : Word} (h : c &&& 0xFFF8FFFF = 0x03000000) :
    encode (.mrtest (raOf c)) = c ∧ fieldLegal (raOf c) = true := by
  obtain ⟨op, rd, ra, rb, rm, zero⟩ := fields_and c 0xFFF8FFFF
  rw [h] at op rd ra rb rm zero
  have hop : opcodeOf c = 0x03 := (op.trans BitVec.and_allOnes).symm
  have hd : rdOf c = 0 := (rd.trans BitVec.and_allOnes).symm
  have hb : rbOf c = 0 := (rb.trans BitVec.and_allOnes).symm
  have hm : rmOf c = 0 := (rm.trans BitVec.and_allOnes).symm
  have hzero : zeroOf c = 0 := (zero.trans BitVec.and_allOnes).symm
  refine ⟨?_, fieldLegal_of_and_eight ra.symm⟩
  have whole := formatC_of_fields c hzero
  rwa [hop, hd, hb, hm] at whole

/-- A command of R93 whose word is `c` is what `c` decodes to. -/
theorem decode_of_encode_eq {c : Word} {i : Instr} (h : encode i = c) (wf : i.WellFormed) : decode c = .ok i :=
  h ▸ decodeOfEncodeIsTheCommand i wf

theorem decode_of_match_modmul {c : Word} (h : c &&& 0xFF8888FF = 0x01000000) :
    decode c = .ok (.modmul (rdOf c) (raOf c) (rbOf c) (rmOf c)) := by
  obtain ⟨word, hd, ha, hb, hm⟩ := formatC_of_match_four (o := 0x01) h
  exact decode_of_encode_eq word (by simp [Instr.WellFormed, Instr.wf, hd, ha, hb, hm])

theorem decode_of_match_modexp {c : Word} (h : c &&& 0xFF8888FF = 0x02000000) :
    decode c = .ok (.modexp (rdOf c) (raOf c) (rbOf c) (rmOf c)) := by
  obtain ⟨word, hd, ha, hb, hm⟩ := formatC_of_match_four (o := 0x02) h
  exact decode_of_encode_eq word (by simp [Instr.WellFormed, Instr.wf, hd, ha, hb, hm])

theorem decode_of_match_mrtest {c : Word} (h : c &&& 0xFFF8FFFF = 0x03000000) :
    decode c = .ok (.mrtest (raOf c)) := by
  obtain ⟨word, ha⟩ := encode_mrtest_of_match h
  exact decode_of_encode_eq word ha

/-- A word is illegal exactly when it decodes to no command. -/
theorem decode_toOption_eq_none_iff (c : Word) : (decode c).toOption = none ↔ ∀ i, decode c ≠ .ok i := by
  cases decode c <;> simp [Except.toOption]

/-- Settles O4: a match decodes by the three lemmas `decode_of_match_…`, and a decoded word matches its command's row
(`rowMatch_of_decode`), so a word of no row decodes to nothing. -/
theorem decodeAgreesWithMatchAndMask : Obligations.DecodeAgreesWithMatchAndMask := by
  intro c
  refine ⟨⟨decode_of_match_modmul, rowMatch_of_decode⟩, ⟨decode_of_match_modexp, rowMatch_of_decode⟩,
    ⟨decode_of_match_mrtest, rowMatch_of_decode⟩, ?_⟩
  rw [decode_toOption_eq_none_iff]
  constructor
  · intro illegal
    exact ⟨fun h => illegal _ (decode_of_match_modmul h), fun h => illegal _ (decode_of_match_modexp h),
      fun h => illegal _ (decode_of_match_mrtest h)⟩
  · rintro ⟨noModmul, noModexp, noMrtest⟩ i h
    have row := rowMatch_of_decode h
    cases i with
    | modmul rd ra rb rm => exact noModmul row
    | modexp rd ra rb rm => exact noModexp row
    | mrtest ra => exact noMrtest row

/-! ### The value of `pow_mod` -/

/-- A number is below 2 to the power of its bit length (R6). -/
theorem lt_two_pow_bitlen (n : Nat) : n < 2 ^ bitlen n := by
  unfold bitlen
  split
  · omega
  · exact Nat.lt_log2_self

theorem modmul_modEq (a b m : Nat) : modmul a b m ≡ a * b [MOD m] := Nat.mod_modEq _ _

/-- The loop of `pow_mod` multiplies its accumulator by the power of its running base, modulo `m` (R120, R122): by induction on
the iterations, the exponent `e` being `2 * (e / 2) + e % 2`. -/
theorem powLoop_modEq {m k : Nat} (v p : Nat) {e : Nat} (he : e < 2 ^ k) :
    powLoop m k v p e ≡ v * p ^ e [MOD m] := by
  induction k generalizing v p e with
  | zero =>
    obtain rfl : e = 0 := by simpa using he
    simp [powLoop, Nat.ModEq.rfl]
  | succ k ih =>
    rw [powLoop]
    split
    · rename_i h0
      simp [h0, Nat.ModEq.rfl]
    · have half : e / 2 < 2 ^ k := by rw [pow_succ] at he; omega
      have bit : (if e % 2 = 1 then modmul v p m else v) ≡ v * p ^ (e % 2) [MOD m] := by
        rcases Nat.mod_two_eq_zero_or_one e with h | h
        · simp [h, Nat.ModEq.rfl]
        · simpa [h] using modmul_modEq v p m
      calc powLoop m k (if e % 2 = 1 then modmul v p m else v) (modmul p p m) (e / 2)
          ≡ (if e % 2 = 1 then modmul v p m else v) * modmul p p m ^ (e / 2) [MOD m] := ih _ _ half
        _ ≡ v * p ^ (e % 2) * (p * p) ^ (e / 2) [MOD m] := bit.mul ((modmul_modEq p p m).pow _)
        _ = v * p ^ e := by
          rw [mul_assoc, ← pow_two, ← pow_mul, ← pow_add, Nat.mod_add_div]

/-- `pow_mod` is the power modulo the modulus (R120, R122). -/
theorem powMod_modEq (base exponent modulus : Nat) :
    powMod base exponent modulus ≡ base ^ exponent [MOD modulus] := by
  simpa [powMod] using powLoop_modEq (m := modulus) 1 base (lt_two_pow_bitlen exponent)

/-- For a modulus above 1 `pow_mod` is the remainder of the power (R123). -/
theorem powMod_eq_pow_mod (base exponent : Nat) {modulus : Nat} (h : 1 < modulus) :
    powMod base exponent modulus = base ^ exponent % modulus := by
  have small : powMod base exponent modulus < modulus := powMod_lt (Nat.zero_lt_of_lt h) le_rfl h base exponent
  rw [← Nat.mod_eq_of_lt small]
  exact powMod_modEq base exponent modulus

/-- The form of MODMUL and MODEXP on registers, with a nonzero modulus (R111, R121). -/
theorem modulusCommand_fieldOf (f : Nat → Nat → Nat → Nat) (d a b : RegIdx) {m : RegIdx} {s : State} (h : getX m s ≠ 0) :
    modulusCommand f (fieldOf d) (fieldOf a) (fieldOf b) (fieldOf m) s =
      succeed (setX d (f (getX a s) (getX b s) (getX m s)) s) := by
  simp [modulusCommand, h]

/-- MODEXP on registers, with a nonzero modulus (R121). -/
theorem exec_modexp_fieldOf (d a b : RegIdx) {m : RegIdx} {s : State} (h : getX m s ≠ 0) :
    exec (.modexp (fieldOf d) (fieldOf a) (fieldOf b) (fieldOf m)) s =
      .next (succeed (setX d (powMod (getX a s) (getX b s) (getX m s)) s)) :=
  congrArg _ (modulusCommand_fieldOf powMod d a b h)

/-! ### Decryption after encryption -/

/-- Fermat: modulo a prime `p`, a positive exponent that is 1 modulo `p - 1` leaves every base as it is. -/
theorem pow_modEq_self_of_prime {p k : Nat} (hp : p.Prime) (hk : 0 < k) (h : k ≡ 1 [MOD p - 1]) (a : Nat) :
    a ^ k ≡ a [MOD p] := by
  have divides : p - 1 ∣ k - 1 := (Nat.modEq_iff_dvd' hk).mp h.symm
  have fermat := Int.ModEq.pow_eq_pow hp divides hk one_pos a
  rw [pow_one] at fermat
  exact_mod_cast fermat

/-- Modulo the product of two different primes, a positive exponent that is 1 modulo `lcm(p-1, q-1)` leaves every base as it is:
by Fermat modulo each prime, and the Chinese remainder theorem. -/
theorem pow_modEq_self_of_two_primes {p q k : Nat} (hp : p.Prime) (hq : q.Prime) (hpq : p ≠ q) (hk : 0 < k)
    (h : k ≡ 1 [MOD Nat.lcm (p - 1) (q - 1)]) (a : Nat) : a ^ k ≡ a [MOD p * q] := by
  rw [← Nat.modEq_and_modEq_iff_modEq_mul ((Nat.coprime_primes hp hq).mpr hpq)]
  exact ⟨pow_modEq_self_of_prime hp hk (h.of_dvd (Nat.dvd_lcm_left _ _)) a,
    pow_modEq_self_of_prime hq hk (h.of_dvd (Nat.dvd_lcm_right _ _)) a⟩

/-- `pow_mod` with `e` and then with `d` is the power to `e * d`, which leaves a message below the modulus as it is (R127). -/
theorem powMod_powMod_of_two_primes {p q e d g : Nat} (hp : p.Prime) (hq : q.Prime) (hpq : p ≠ q) (hed : 0 < e * d)
    (h : e * d ≡ 1 [MOD Nat.lcm (p - 1) (q - 1)]) (hg : g < p * q) :
    powMod (powMod g e (p * q)) d (p * q) = g := by
  have hn : 1 < p * q := Nat.one_lt_mul_iff.mpr ⟨hp.pos, hq.pos, .inl hp.one_lt⟩
  have trip : powMod g e (p * q) ^ d ≡ g [MOD p * q] :=
    calc powMod g e (p * q) ^ d
        ≡ (g ^ e) ^ d [MOD p * q] := (powMod_modEq g e (p * q)).pow d
      _ = g ^ (e * d) := (pow_mul g e d).symm
      _ ≡ g [MOD p * q] := pow_modEq_self_of_two_primes hp hq hpq hed h g
  rw [powMod_eq_pow_mod _ _ hn]
  exact Eq.trans trip (Nat.mod_eq_of_lt hg)

/-- Settles O11: both commands are MODEXP with a nonzero modulus, the ciphertext overwrites neither the key nor the modulus, and
`powMod_powMod_of_two_primes`. -/
theorem decryptAfterEncryptReturnsTheMessage : Obligations.DecryptAfterEncryptReturnsTheMessage := by
  intro s c g e d n p q hp hq hpq hn hed hpos hg hcd hcn
  have modulus : getX n s ≠ 0 := by rw [hn]; exact Nat.mul_ne_zero hp.ne_zero hq.ne_zero
  let t : State := succeed (setX c (powMod (getX g s) (getX e s) (getX n s)) s)
  have ct : getX c t = powMod (getX g s) (getX e s) (p * q) := by simp [t, hn]
  have dt : getX d t = getX d s := by simp [t, hcd]
  have nt : getX n t = getX n s := by simp [t, hcn]
  refine ⟨t, _, exec_modexp_fieldOf c g e modulus, exec_modexp_fieldOf g c d (nt ▸ modulus), ?_⟩
  rw [getX_succeed, getX_setX_self, ct, dt, nt, hn]
  exact powMod_powMod_of_two_primes hp hq hpq hpos hed (hn ▸ hg)

end Sys2Proof.Machine
end

section
/-! PROOFS of the family of spec/40_modmul.md: MODMUL and its pseudo-instruction `modsqr` with a nonzero modulus. -/

namespace Sys2Proof.Machine

/-- MODMUL on registers, with a nonzero modulus (R111). -/
theorem exec_modmul_fieldOf (d a b : RegIdx) {m : RegIdx} {s : State} (h : getX m s ≠ 0) :
    exec (.modmul (fieldOf d) (fieldOf a) (fieldOf b) (fieldOf m)) s =
      .next (succeed (setX d (modmul (getX a s) (getX b s) (getX m s)) s)) :=
  congrArg _ (modulusCommand_fieldOf modmul d a b h)

/-- Settles O5: the rule of MODMUL on registers, with `modmul`, the register write and the successful end written out. -/
theorem modmulWritesTheProductRemainder : Obligations.ModmulWritesTheProductRemainder := by
  intro s d a b m modulus
  rw [exec_modmul_fieldOf d a b modulus]
  rfl

/-- Settles O10: `modsqr` is MODMUL with one register as both factors (R98), so its effect is an instance of O5's; R115's word
and values are computed. -/
theorem modsqrWritesTheSquareRemainder : Obligations.ModsqrWritesTheSquareRemainder := by
  refine ⟨fun s d a m modulus => ?effect, ?word, ?value⟩
  case effect => exact modmulWritesTheProductRemainder s d a a m modulus
  case word => decide
  case value => decide

end Sys2Proof.Machine
end

section
/-! PROOFS of the family of spec/41_modexp.md: the running values of `pow_mod`'s loop (R122), the value law they end in (R123), and
MODEXP with a nonzero modulus. -/

namespace Sys2Proof.Machine

/-! ### The running values of the loop -/

/-- A number is below `2 ^ k` exactly when its bit length is at most `k` (R6). -/
theorem lt_two_pow_iff_bitlen_le {n k : Nat} : n < 2 ^ k ↔ bitlen n ≤ k := by
  unfold bitlen
  split
  · rename_i h0
    simp [h0]
  · rename_i hn
    rw [Nat.succ_le_iff, Nat.log2_lt hn]

/-- The accumulator R122 gives when the exponent bits taken so far make up `r`: the unreduced 1 until one of them is set. -/
def runningAccumulator (B m r : Nat) : Nat := if r = 0 then 1 else B ^ r % m

/-- The base R122 gives after `k` iterations: the unreduced base until the first squaring. -/
def runningBase (B m k : Nat) : Nat := if k = 0 then B else B ^ 2 ^ k % m

theorem runningAccumulator_modEq (B m r : Nat) : runningAccumulator B m r ≡ B ^ r [MOD m] := by
  unfold runningAccumulator
  split
  · rename_i h0
    rw [h0, pow_zero]
  · exact Nat.mod_modEq _ _

theorem runningBase_modEq (B m k : Nat) : runningBase B m k ≡ B ^ 2 ^ k [MOD m] := by
  unfold runningBase
  split
  · rename_i h0
    rw [h0, pow_zero, pow_one]
  · exact Nat.mod_modEq _ _

/-- The squaring of an iteration leads to the next running base (R122). -/
theorem modmul_runningBase_self (B m k : Nat) :
    modmul (runningBase B m k) (runningBase B m k) m = runningBase B m (k + 1) :=
  calc runningBase B m k * runningBase B m k % m
      = B ^ 2 ^ k * B ^ 2 ^ k % m := (runningBase_modEq B m k).mul (runningBase_modEq B m k)
    _ = B ^ 2 ^ (k + 1) % m := by rw [← pow_add, ← two_mul, ← pow_succ']

/-- The product of an iteration with a set bit adds `2 ^ k` to the part of the exponent that is done (R122). -/
theorem modmul_runningAccumulator_runningBase (B m r k : Nat) :
    modmul (runningAccumulator B m r) (runningBase B m k) m = runningAccumulator B m (r + 2 ^ k) := by
  have pos : r + 2 ^ k ≠ 0 := (Nat.add_pos_right r (Nat.two_pow_pos k)).ne'
  calc runningAccumulator B m r * runningBase B m k % m
      = B ^ r * B ^ 2 ^ k % m := (runningAccumulator_modEq B m r).mul (runningBase_modEq B m k)
    _ = runningAccumulator B m (r + 2 ^ k) := by rw [← pow_add, runningAccumulator, if_neg pos]

/-- The accumulator's update of iteration `k`, whose bit is bit `k` of the exponent (R122). -/
theorem accumulate_eq_runningAccumulator (B E m k : Nat) :
    (if E / 2 ^ k % 2 = 1 then modmul (runningAccumulator B m (E % 2 ^ k)) (runningBase B m k) m
      else runningAccumulator B m (E % 2 ^ k)) = runningAccumulator B m (E % 2 ^ (k + 1)) := by
  rw [Nat.mod_pow_succ]
  rcases Nat.mod_two_eq_zero_or_one (E / 2 ^ k) with bit | bit
  · simp [bit]
  · simp [bit, modmul_runningAccumulator_runningBase]

/-- While the running exponent is not 0, one iteration of the loop leads from the running values of R122 to the next ones. -/
theorem powLoop_runningValues_succ {B E m k : Nat} (h : E / 2 ^ k ≠ 0) (fuel : Nat) :
    powLoop m (fuel + 1) (runningAccumulator B m (E % 2 ^ k)) (runningBase B m k) (E / 2 ^ k) =
      powLoop m fuel (runningAccumulator B m (E % 2 ^ (k + 1))) (runningBase B m (k + 1)) (E / 2 ^ (k + 1)) := by
  rw [powLoop, if_neg h, accumulate_eq_runningAccumulator, modmul_runningBase_self, Nat.div_div_eq_div_mul, ← pow_succ]

/-- The running exponent is 0 exactly when all the bits of the exponent are taken (R122). -/
theorem div_two_pow_eq_zero_iff_bitlen_le {n k : Nat} : n / 2 ^ k = 0 ↔ bitlen n ≤ k := by
  rw [Nat.div_eq_zero_iff_lt (Nat.two_pow_pos k), lt_two_pow_iff_bitlen_le]

/-- The loop continued from the running values after `k` iterations ends in the result of `pow_mod`: by induction on `k`. -/
theorem powMod_eq_powLoop_runningValues (B m : Nat) {E k : Nat} (hk : k ≤ bitlen E) :
    powMod B E m =
      powLoop m (bitlen E - k) (runningAccumulator B m (E % 2 ^ k)) (runningBase B m k) (E / 2 ^ k) := by
  induction k with
  | zero => simp [powMod, runningAccumulator, runningBase, Nat.mod_one]
  | succ k ih =>
    have running : E / 2 ^ k ≠ 0 := fun h => (div_two_pow_eq_zero_iff_bitlen_le.mp h).not_gt hk
    have fuel : bitlen E - k = bitlen E - (k + 1) + 1 := by omega
    rw [ih (Nat.le_of_succ_le hk), fuel, powLoop_runningValues_succ running]

/-- Settles O9: the continuation by `powMod_eq_powLoop_runningValues`, the running exponent by `div_two_pow_eq_zero_iff_bitlen_le`. -/
theorem powModLoopAfterEachIteration : Obligations.PowModLoopAfterEachIteration := by
  intro B E m k _ hk
  refine ⟨powMod_eq_powLoop_runningValues B m hk, ?_⟩
  rw [div_two_pow_eq_zero_iff_bitlen_le]
  exact ⟨hk.antisymm, Eq.ge⟩

/-! ### The value law -/

/-- `pow_mod` is the running accumulator of the whole exponent: the running values after the last iteration (R122). -/
theorem powMod_eq_runningAccumulator (B E m : Nat) : powMod B E m = runningAccumulator B m E := by
  rw [powMod_eq_powLoop_runningValues B m le_rfl, Nat.sub_self, powLoop, Nat.mod_eq_of_lt (lt_two_pow_bitlen E)]

/-- For modulus 1 `pow_mod` is the unreduced 1 it starts from if the exponent is 0, else 0 (R123). -/
theorem powMod_one (B E : Nat) : powMod B E 1 = if E = 0 then 1 else 0 := by
  rw [powMod_eq_runningAccumulator, runningAccumulator, Nat.mod_one]

/-- Settles O8: the two values by `powMod_eq_pow_mod` and `powMod_one`, the two bounds as instances of `powMod_lt`. -/
theorem powModValueLaw : Obligations.PowModValueLaw := by
  intro base exponent modulus
  refine ⟨powMod_eq_pow_mod base exponent, ?one, fun hm => ?bound, fun p hm hlt => ?width⟩
  case one => rintro rfl; exact powMod_one base exponent
  case bound => exact powMod_lt hm (le_max_left _ _) (lt_max_of_lt_right one_lt_two) base exponent
  case width => exact powMod_lt hm hlt.le (one_lt_two_pow_width p) base exponent

/-! ### MODEXP -/

/-- The value law of `pow_mod` for every nonzero modulus, as one equation (R123). -/
theorem powMod_eq_of_ne_zero (base exponent : Nat) {modulus : Nat} (h : modulus ≠ 0) :
    powMod base exponent modulus =
      if modulus = 1 then (if exponent = 0 then 1 else 0) else base ^ exponent % modulus := by
  split
  · rename_i one
    rw [one, powMod_one]
  · rename_i ne_one
    exact powMod_eq_pow_mod base exponent (Nat.one_lt_iff_ne_zero_and_ne_one.mpr ⟨h, ne_one⟩)

/-- Settles O6: the rule of MODEXP on registers, with the value of `pow_mod`; the register write and the successful end are then
written out. -/
theorem modexpWritesThePowerRemainder : Obligations.ModexpWritesThePowerRemainder := by
  intro s d a b m modulus
  rw [exec_modexp_fieldOf d a b modulus, powMod_eq_of_ne_zero _ _ modulus]
  rfl

end Sys2Proof.Machine
end

section
/-! PROOFS of the family of spec/42_mrtest.md: `decompose` (R135), the witness draw (R136), one trial and its closed form (R137), what
a trial makes of a prime (R140), and MRTEST as a run of rounds (R138, R141, R142). -/

namespace Sys2Proof.Machine

/-! ### The decomposition -/

/-- Each halving moves one factor 2 from the second component to the count. -/
theorem two_pow_mul_halveLoop (k s r : Nat) : 2 ^ (halveLoop k s r).1 * (halveLoop k s r).2 = 2 ^ s * r := by
  induction k generalizing s r with
  | zero => rfl
  | succ k ih =>
    rw [halveLoop]
    split
    · rename_i even
      rw [ih, pow_succ, mul_assoc, Nat.mul_div_cancel' (Nat.dvd_of_mod_eq_zero even)]
    · rfl

theorem le_halveLoop_fst (k s r : Nat) : s ≤ (halveLoop k s r).1 := by
  induction k generalizing s r with
  | zero => exact le_rfl
  | succ k ih =>
    rw [halveLoop]
    split
    · exact (Nat.le_succ s).trans (ih _ _)
    · exact le_rfl

/-- The loop ends in an odd number when its bound is large enough: a positive number below `2 ^ k` is halved less than `k` times. -/
theorem halveLoop_snd_odd {k r : Nat} (s : Nat) (pos : 0 < r) (hr : r < 2 ^ k) : (halveLoop k s r).2 % 2 = 1 := by
  induction k generalizing s r with
  | zero => exact absurd hr (by simpa using pos.ne')
  | succ k ih =>
    rw [halveLoop]
    rw [pow_succ] at hr
    split
    · exact ih _ (by omega) (by omega)
    · rename_i odd
      exact Nat.mod_two_ne_zero.mp odd

theorem sub_one_eq_two_pow_mul_decompose {n : Nat} (odd : n % 2 = 1) : n - 1 = 2 ^ (decompose n).1 * (decompose n).2 := by
  rw [decompose, two_pow_mul_halveLoop]
  omega

theorem decompose_snd_odd {n : Nat} (hn : 3 ≤ n) : (decompose n).2 % 2 = 1 :=
  halveLoop_snd_odd 1 (by omega) (lt_of_le_of_lt (by omega) (lt_two_pow_bitlen n))

theorem one_le_decompose_fst (n : Nat) : 1 ≤ (decompose n).1 := le_halveLoop_fst _ 1 _

/-- The count of factors 2 stays below the bit length: `2 ^ s` divides `n - 1`. -/
theorem decompose_fst_lt_bitlen {n : Nat} (hn : 3 ≤ n) (odd : n % 2 = 1) : (decompose n).1 < bitlen n := by
  have divides : 2 ^ (decompose n).1 ∣ n - 1 := ⟨_, sub_one_eq_two_pow_mul_decompose odd⟩
  rw [← Nat.pow_lt_pow_iff_right one_lt_two]
  calc 2 ^ (decompose n).1 ≤ n - 1 := Nat.le_of_dvd (by omega) divides
    _ < n := by omega
    _ < 2 ^ bitlen n := lt_two_pow_bitlen n

/-- An odd cofactor takes all the factors 2 out of a number. -/
theorem le_of_two_pow_mul_eq {s r s' r' : Nat} (h : 2 ^ s * r = 2 ^ s' * r') (odd : r' % 2 = 1) : s ≤ s' := by
  have coprime : Nat.Coprime (2 ^ s) r' := (Nat.coprime_two_left.mpr (Nat.odd_iff.mpr odd)).pow_left s
  exact Nat.pow_dvd_pow_iff_le_right'.mp (coprime.dvd_of_dvd_mul_right (Dvd.intro _ h))

/-- A number is a power of 2 times an odd number in one way only. -/
theorem two_pow_mul_odd_unique {s r s' r' : Nat} (h : 2 ^ s * r = 2 ^ s' * r') (odd : r % 2 = 1) (odd' : r' % 2 = 1) :
    s = s' ∧ r = r' := by
  obtain rfl : s = s' := (le_of_two_pow_mul_eq h odd').antisymm (le_of_two_pow_mul_eq h.symm odd)
  exact ⟨rfl, Nat.eq_of_mul_eq_mul_left (Nat.two_pow_pos s) h⟩

/-- Settles O12: the laws of `decompose`, the bit length of a number that fits the operand, and the uniqueness of the odd part. -/
theorem decomposeGivesTheUniquePair : Obligations.DecomposeGivesTheUniquePair := by
  intro n hn odd
  have product : n - 1 = 2 ^ (decompose n).1 * (decompose n).2 := sub_one_eq_two_pow_mul_decompose odd
  have oddPart : (decompose n).2 % 2 = 1 := decompose_snd_odd hn
  have short : (decompose n).1 < bitlen n := decompose_fst_lt_bitlen hn odd
  refine ⟨product, oddPart, one_le_decompose_fst n, Nat.le_sub_one_of_lt short, fun p fits => ?_, fun s r h odd' => ?_⟩
  · have : bitlen n ≤ p.width := lt_two_pow_iff_bitlen_le.mp fits
    omega
  · obtain ⟨hs, hr⟩ := two_pow_mul_odd_unique (h.symm.trans product) odd' oddPart
    exact Prod.ext hs hr

/-! ### The witness draw -/

theorem drawWitness_not_ready (d n : Nat) {g : Source} (h : g.state ≠ .ready) :
    drawWitness d n g = (.error .rngNotReady, g) := by
  simp [drawWitness, rndBelow, h]

theorem drawWitness_in_range {d n : Nat} {g : Source} (h : g.state = .ready) (hd : d < n - 3) :
    drawWitness d n g = (.ok (2 + d), g.advance) := by
  simp [drawWitness, rndBelow, h, hd]

theorem drawWitness_out_of_range {d n : Nat} {g : Source} (h : g.state = .ready) (hd : n - 3 ≤ d) :
    drawWitness d n g = (.error .rngRange, g.advance) := by
  simp [drawWitness, rndBelow, h, Nat.not_lt.mpr hd]

/-- A READY source's answer gives the witness `a` exactly when it is in range and 2 below `a`. -/
theorem drawWitness_eq_ok_iff {d n a : Nat} {g : Source} (h : g.state = .ready) :
    (drawWitness d n g).1 = .ok a ↔ d < n - 3 ∧ 2 + d = a := by
  rcases lt_or_ge d (n - 3) with hd | hd
  · simp [drawWitness_in_range h hd, hd]
  · simp [drawWitness_out_of_range h hd, hd]

/-- Settles O13: the three answers of a draw, and `a - 2` is the one answer that gives the witness `a`. -/
theorem witnessDrawCoversItsRange : Obligations.WitnessDrawCoversItsRange := by
  intro n d g hn
  refine ⟨drawWitness_not_ready d n, fun h hd => ⟨drawWitness_in_range h hd, by omega, by omega⟩,
    drawWitness_out_of_range, fun a h2 ha h => ?_⟩
  simp only [drawWitness_eq_ok_iff h]
  exact ⟨a - 2, by omega, fun e he => by omega⟩

/-! ### One trial -/

/-- One squaring takes one off the exponent of 2. -/
theorem modmul_self_pow_two_pow (y n i : Nat) : modmul y y n ^ 2 ^ i % n = y ^ 2 ^ (i + 1) % n := by
  rw [modmul, ← Nat.pow_mod, ← pow_two, ← pow_mul, ← pow_succ']

/-- The squaring loop passes exactly when `y` or one of its next `k` squares is `n - 1` (R137): by induction on the squarings
allowed. The exit at a square of 1 is right because every later square is 1 too. -/
theorem squareLoop_eq_pass_iff {n : Nat} (hn : 3 ≤ n) (k : Nat) {y : Nat} (hy : y < n) :
    squareLoop n k y = .pass ↔ ∃ i ≤ k, y ^ 2 ^ i % n = n - 1 := by
  have now : y ^ 2 ^ 0 % n = n - 1 ↔ y = n - 1 := by rw [pow_zero, pow_one, Nat.mod_eq_of_lt hy]
  induction k generalizing y with
  | zero => simp [squareLoop, ← now]
  | succ k ih =>
    have later : (∃ i ≤ k + 1, y ^ 2 ^ i % n = n - 1) ↔
        y = n - 1 ∨ ∃ i ≤ k, modmul y y n ^ 2 ^ i % n = n - 1 := by
      simp only [← Nat.lt_succ_iff, Nat.exists_lt_succ_left, now, modmul_self_pow_two_pow]
    rw [squareLoop, later]
    split
    · rename_i last
      exact iff_of_true rfl (.inl last)
    · rename_i notLast
      rw [or_iff_right notLast]
      split
      · rename_i one
        have stuck : 1 % n ≠ n - 1 := by rw [Nat.mod_eq_of_lt (by omega)]; omega
        simp [one, stuck]
      · exact ih (modmul_lt y y (by omega)) (by rw [pow_zero, pow_one, Nat.mod_eq_of_lt (modmul_lt y y (by omega))])

/-- A trial passes exactly by its closed form, for any `s` and `r` (R137). -/
theorem mrRound_eq_pass_iff {n : Nat} (hn : 3 ≤ n) (s r a : Nat) :
    mrRound n s r a = .pass ↔ a ^ r % n = 1 ∨ ∃ i ≤ s - 1, a ^ (2 ^ i * r) % n = n - 1 := by
  have squares (i : Nat) : (a ^ r % n) ^ 2 ^ i % n = a ^ (2 ^ i * r) % n := by
    rw [← Nat.pow_mod, ← pow_mul, mul_comm]
  rw [mrRound, powMod_eq_pow_mod a r (by omega)]
  split
  · rename_i one
    exact iff_of_true rfl (.inl one)
  · rename_i notOne
    simp only [squareLoop_eq_pass_iff hn _ (Nat.mod_lt _ (by omega)), squares, or_iff_right notOne]

/-- Settles O14: the closed form of a trial, at the pair of `decompose`. -/
theorem trialPassesExactlyByItsClosedForm : Obligations.TrialPassesExactlyByItsClosedForm :=
  fun _ a h5 _ _ _ => mrRound_eq_pass_iff (by omega) _ _ a

/-! ### A trial of a prime -/

/-- Where 1 has no square roots but 1 and -1, an element whose repeated square is 1 is 1 itself or passes through -1. -/
theorem eq_one_or_exists_two_pow_eq_neg_one {R : Type*} [Ring R] [NoZeroDivisors R] {b : R} {s : Nat} (h : b ^ 2 ^ s = 1) :
    b = 1 ∨ ∃ i < s, b ^ 2 ^ i = -1 := by
  induction s with
  | zero => exact .inl (by simpa using h)
  | succ s ih =>
    rw [pow_succ, pow_mul, sq_eq_one_iff] at h
    rcases h with one | negOne
    · exact (ih one).imp_right fun ⟨i, hi, e⟩ => ⟨i, Nat.lt_succ_of_lt hi, e⟩
    · exact .inr ⟨s, Nat.lt_succ_self s, negOne⟩

/-- A remainder of `n - 1` is -1 modulo `n`. -/
theorem mod_eq_sub_one_iff {n : Nat} (hn : 0 < n) (b : Nat) : b % n = n - 1 ↔ (b : ZMod n) = -1 := by
  have neg : ((n - 1 : Nat) : ZMod n) = -1 := by rw [Nat.cast_sub hn, ZMod.natCast_self, Nat.cast_one, zero_sub]
  rw [← neg, ZMod.natCast_eq_natCast_iff', Nat.mod_eq_of_lt (Nat.sub_lt hn one_pos)]

/-- A prime passes the trial of every witness it does not divide (R140): by Fermat `a ^ (2 ^ s * r) = 1` modulo `n`, and
modulo a prime 1 has no square roots but 1 and -1. -/
theorem mrRound_of_prime {n s r a : Nat} (hp : n.Prime) (hn : 3 ≤ n) (product : n - 1 = 2 ^ s * r) (ha : ¬ n ∣ a) :
    mrRound n s r a = .pass := by
  have : Fact n.Prime := ⟨hp⟩
  have fermat : ((a : ZMod n) ^ r) ^ 2 ^ s = 1 := by
    rw [← pow_mul, mul_comm, ← product]
    exact ZMod.pow_card_sub_one_eq_one (mt (ZMod.natCast_eq_zero_iff a n).mp ha)
  rw [mrRound_eq_pass_iff hn]
  refine (eq_one_or_exists_two_pow_eq_neg_one fermat).imp (fun one => ?_) fun ⟨i, hi, negOne⟩ => ⟨i, ?_, ?_⟩
  · have : ((a ^ r : Nat) : ZMod n) = (1 : Nat) := by exact_mod_cast one
    rwa [ZMod.natCast_eq_natCast_iff', Nat.mod_eq_of_lt hp.one_lt] at this
  · exact Nat.le_sub_one_of_lt hi
  · rw [mod_eq_sub_one_iff hp.pos, mul_comm, Nat.cast_pow, pow_mul]
    exact negOne

/-- A prime passes every trial of MRTEST: `decompose` gives the pair of R135, and a prime divides no witness below it. -/
theorem mrRound_decompose_of_prime {n a : Nat} (hp : n.Prime) (h5 : 5 ≤ n) (h2 : 2 ≤ a) (ha : a ≤ n - 2) :
    mrRound n (decompose n).1 (decompose n).2 a = .pass :=
  mrRound_of_prime hp (by omega)
    (sub_one_eq_two_pow_mul_decompose (hp.eq_two_or_odd.resolve_left (by omega)))
    (Nat.not_dvd_of_pos_of_lt (by omega) (by omega))

/-- Settles O15: a prime is odd, and its trials pass by Fermat. -/
theorem primePassesEveryTrial : Obligations.PrimePassesEveryTrial :=
  fun _ _ => mrRound_decompose_of_prime

/-! ### The rounds -/

/-- MRTEST on a register, with an operand in its domain (R138). -/
theorem exec_mrtest_fieldOf {s : State} {a : RegIdx} (h5 : 5 ≤ getX a s) (odd : getX a s % 2 = 1) :
    exec (.mrtest (fieldOf a)) s = .next (mrFinish (mrRounds (getX a s) (roundsLeft s) s.rng) s) := by
  simp [exec, execMrtest, h5, odd]

/-- The source after `k` more answers. -/
def Source.drawn (g : Source) (k : Nat) : Source := { g with position := g.position + k }

/-- The round on `n` that the answer `d` passes (R137, R138). -/
def RoundPasses (n d : Nat) : Prop :=
  d < n - 3 ∧ mrRound n (decompose n).1 (decompose n).2 (2 + d) = .pass

theorem mrTrial_of_passes {n d : Nat} {g : Source} (ready : g.state = .ready) (h : RoundPasses n d) :
    mrTrial n d g = (.prime, g.advance) := by
  obtain ⟨inRange, pass⟩ := h
  rw [mrTrial_in_range ready inRange, pass]

theorem mrTrial_of_composite {n d : Nat} {g : Source} (ready : g.state = .ready) (inRange : d < n - 3)
    (composite : mrRound n (decompose n).1 (decompose n).2 (2 + d) = .composite) :
    mrTrial n d g = (.composite, g.advance) := by
  rw [mrTrial_in_range ready inRange, composite]

/-- Rounds that pass, each with its own answer, leave the rounds after them to run from the source so many answers later. -/
theorem mrRounds_add_of_passes {n k : Nat} {g : Source} (ready : g.state = .ready)
    (passes : ∀ j < k, RoundPasses n ((g.drawn j).freeAnswer (n - 3))) (m : Nat) :
    mrRounds n (k + m) g = mrRounds n m (g.drawn k) := by
  induction k generalizing m with
  | zero => rw [Nat.zero_add]; rfl
  | succ k ih =>
    have before (j : Nat) (hj : j < k) := passes j (Nat.lt_succ_of_lt hj)
    have ready' : (g.drawn k).state = .ready := ready
    have round := mrTrial_of_passes ready' (passes k (Nat.lt_succ_self k))
    rw [Nat.add_right_comm, Nat.add_assoc, ih before, mrRounds_succ_of_prime m round]
    rfl

/-- After rounds that pass, the first that does not is the last (R138). -/
theorem mrRounds_of_passes_then_stops {n k left : Nat} {g g' : Source} {v : Verdict} (ready : g.state = .ready)
    (passes : ∀ j < k, RoundPasses n ((g.drawn j).freeAnswer (n - 3))) (hk : k < left)
    (last : mrTrial n ((g.drawn k).freeAnswer (n - 3)) (g.drawn k) = (v, g')) (hv : v ≠ .prime) :
    mrRounds n left g = (v, g') := by
  obtain ⟨m, rfl⟩ := Nat.exists_eq_add_of_lt hk
  rw [Nat.add_assoc, mrRounds_add_of_passes ready passes, mrRounds_succ_of_not_prime m last hv]

/-- Below a bound, a property holds of a first stretch of numbers and fails at its end, or holds of them all. -/
theorem exists_stretch (P : Nat → Prop) (bound : Nat) :
    ∃ k ≤ bound, (∀ j < k, P j) ∧ (k = bound ∨ k < bound ∧ ¬ P k) := by
  classical
  have ends : ∃ k, k = bound ∨ k < bound ∧ ¬ P k := ⟨bound, .inl rfl⟩
  have short : Nat.find ends ≤ bound := Nat.find_min' ends (.inl rfl)
  refine ⟨Nat.find ends, short, fun j hj => ?_, Nat.find_spec ends⟩
  by_contra fails
  exact Nat.find_min ends hj (.inr ⟨hj.trans_le short, fails⟩)

/-- Settles O19: `k` is the number of rounds before the first that does not pass, which is the last; its answer is out of range or
its trial is composite. -/
theorem mrtestRunsItsRoundsInOrder : Obligations.MrtestRunsItsRoundsInOrder := by
  intro s a h5 odd ready n left answer trial drawn ended
  have run {r : Verdict × Source} (h : mrRounds n left s.rng = r) :
      exec (.mrtest (fieldOf a)) s = .next (mrFinish r s) := h ▸ exec_mrtest_fieldOf h5 odd
  obtain ⟨k, hk, passes, rfl | ⟨lt, fails⟩⟩ := exists_stretch (fun j => RoundPasses n (answer j)) left
  · exact ⟨_, hk, passes, .inl ⟨rfl, run (mrRounds_add_of_passes ready passes 0)⟩⟩
  refine ⟨k, hk, passes, .inr ?_⟩
  have readyThen : (s.rng.drawn k).state = .ready := ready
  by_cases out : n - 3 ≤ answer k
  · have last := mrTrial_out_of_range readyThen out
    exact .inr ⟨lt, out, run (mrRounds_of_passes_then_stops ready passes lt last nofun)⟩
  · have inRange : answer k < n - 3 := Nat.not_le.mp out
    have composite : trial k = .composite := by
      cases result : trial k
      · exact absurd ⟨inRange, result⟩ fails
      · rfl
    have last := mrTrial_of_composite readyThen inRange composite
    exact .inl ⟨lt, inRange, composite, run (mrRounds_of_passes_then_stops ready passes lt last nofun)⟩

/-! ### A test of a prime -/

/-- No round finds a prime composite: its draw fails or its trial passes. -/
theorem mrTrial_ne_composite_of_prime {n : Nat} (hp : n.Prime) (h5 : 5 ≤ n) (d : Nat) (g : Source) :
    (mrTrial n d g).1 ≠ .composite := by
  by_cases ready : g.state = .ready
  · rcases lt_or_ge d (n - 3) with hd | hd
    · rw [mrTrial_in_range ready hd, mrRound_decompose_of_prime hp h5 (by omega) (by omega)]
      nofun
    · rw [mrTrial_out_of_range ready hd]
      nofun
  · rw [mrTrial_not_ready ready]
    nofun

theorem mrRounds_ne_composite_of_prime {n : Nat} (hp : n.Prime) (h5 : 5 ≤ n) (k : Nat) (g : Source) :
    (mrRounds n k g).1 ≠ .composite := by
  induction k generalizing g with
  | zero => nofun
  | succ k ih =>
    rcases round : mrTrial n (g.freeAnswer (n - 3)) g with ⟨v, g'⟩
    by_cases hv : v = .prime
    · subst hv
      rw [mrRounds_succ_of_prime k round]
      exact ih g'
    · rw [mrRounds_succ_of_not_prime k round hv]
      exact fun h => mrTrial_ne_composite_of_prime hp h5 _ g (round ▸ h)

/-- An MRTEST whose verdict is not composite ends with PRIME = 1 or with an error (R138). -/
theorem mrFinish_prime_of_ne_composite {r : Verdict × Source} (h : r.1 ≠ .composite) (s : State) :
    (mrFinish r s).err = false → (mrFinish r s).prime = true := by
  unfold mrFinish
  split
  · exact fun _ => rfl
  · rename_i composite
    exact absurd composite h
  · nofun

/-- Settles O20: no round of a prime ends in composite. -/
theorem mrtestNeverRejectsAPrime : Obligations.MrtestNeverRejectsAPrime := by
  intro s a hp h5 _
  have odd : getX a s % 2 = 1 := hp.eq_two_or_odd.resolve_left (by omega)
  exact ⟨_, exec_mrtest_fieldOf h5 odd, mrFinish_prime_of_ne_composite (mrRounds_ne_composite_of_prime hp h5 _ _) s⟩

/-- Settles O17: no round is left, so the verdict is prime and the source is not looked at. -/
theorem mrtestWithNoRoundsDeclaresPrime : Obligations.MrtestWithNoRoundsDeclaresPrime := by
  intro s a h5 odd iters
  have left : roundsLeft s = 0 := by simp [roundsLeft, iters]
  rw [exec_mrtest_fieldOf h5 odd, left]
  rfl

/-! ### A composite that is accepted (R146) -/

/-- An idle block with 221 in `x[0]`, one round to run, PRIME = 0, and a READY source. -/
def beforeStrongLiar : State :=
  { State.powerOn ⟨1, 0⟩ with
    x := #v[221, 0, 0, 0, 0, 0, 0, 0], mrIters := 1, rng := { state := .ready, seed := 0, position := 0 } }

/-- Settles O21: the command is accepted, the answer 172 makes the witness 174, which 221 passes, and no round is left. -/
theorem mrtestCanAcceptAComposite : Obligations.MrtestCanAcceptAComposite :=
  ⟨beforeStrongLiar, _, 0, rfl, rfl, rfl, by norm_num, rfl, rfl, rfl, rfl⟩

end Sys2Proof.Machine
end

section
/-! PROOFS of the family of spec/60_exceptions.md: what raises each error and with what end, that errors do not nest, the source's
transaction, and the moves of its lifecycle. -/

namespace Sys2Proof.Machine

/-! ### The errors a command raises -/

/-- The form of MODMUL and MODEXP on registers, with a zero modulus (R202). -/
theorem modulusCommand_fieldOf_of_zero (f : Nat → Nat → Nat → Nat) (d a b : RegIdx) {m : RegIdx} {s : State}
    (h : getX m s = 0) :
    modulusCommand f (fieldOf d) (fieldOf a) (fieldOf b) (fieldOf m) s = raiseError .modulusZero s := by
  simp [modulusCommand, h]

/-- Settles O7: both commands are of the one form, whose zero modulus ends in the error before anything is computed. -/
theorem zeroModulusRaisesModulusZero : Obligations.ZeroModulusRaisesModulusZero := fun _ d a b _ zero =>
  ⟨congrArg _ (modulusCommand_fieldOf_of_zero modmul d a b zero),
    congrArg _ (modulusCommand_fieldOf_of_zero powMod d a b zero)⟩

/-- MRTEST on a register, with an operand outside its domain (R203). -/
theorem exec_mrtest_fieldOf_outside {s : State} {a : RegIdx} (outside : ¬ inDomain (getX a s) = true) :
    exec (.mrtest (fieldOf a)) s = .next (raiseError .operandDomain s) := by
  simp only [exec, execMrtest, regIndex_fieldOf, if_neg outside]

/-- Settles O16: an operand below 5 or even is outside the domain. -/
theorem mrtestOutsideItsDomainRaisesOperandDomain : Obligations.MrtestOutsideItsDomainRaisesOperandDomain := by
  intro s a h
  apply exec_mrtest_fieldOf_outside
  rw [inDomain_iff]
  omega

/-- With a round to run and no READY source, the first draw ends the rounds and the source is as it was (R204). -/
theorem mrRounds_not_ready {n left : Nat} {g : Source} (hl : 0 < left) (h : g.state ≠ .ready) :
    mrRounds n left g = (.failed .rngNotReady, g) := by
  obtain ⟨k, rfl⟩ := Nat.exists_eq_succ_of_ne_zero hl.ne'
  exact mrRounds_succ_of_not_prime k (mrTrial_not_ready h) nofun

/-- Settles O18: the rounds end at their first draw, and the error is the command's end. -/
theorem mrtestWithoutASourceRaisesRngNotReady : Obligations.MrtestWithoutASourceRaisesRngNotReady := by
  intro s a h5 odd hl hr
  have left : 0 < roundsLeft s := Nat.sub_pos_of_lt hl
  rw [exec_mrtest_fieldOf h5 odd, mrRounds_not_ready left hr]
  rfl

/-- The completion of a word that does not decode (R201). -/
theorem complete_of_illegal {s : State} (h : (decode s.lastCmd).toOption = none) :
    complete s = .next (raiseError .illegalCommand s) := by
  unfold complete
  split
  · rename_i i hd
    exact absurd hd ((decode_toOption_eq_none_iff s.lastCmd).mp h i)
  · rfl

theorem engineTurn_of_illegal {s : State} (hb : s.busy = true) (h : (decode s.lastCmd).toOption = none) :
    engineTurn s = .next (raiseError .illegalCommand s) := (engineTurn_busy hb).trans (complete_of_illegal h)

/-- Settles O25: the engine's turn with a command in flight is its completion. -/
theorem illegalWordRaisesIllegalCommand : Obligations.IllegalWordRaisesIllegalCommand := by
  intro s rest h hb illegal
  exact (step_cons h).trans (engineTurn_of_illegal hb illegal)

/-! ### Errors do not nest -/

/-- A step that takes ERR from 0 to 1 is a completion that ends in an error. -/
theorem StepDid.raised {s t : State} (h : StepDid s t) (was : s.err = false) (now : t.err = true) :
    s.busy = true ∧ EnginesMove s ∧ t.busy = false ∧ t.done = true ∧ t.lastCmd = s.lastCmd ∧ t.errCode ≠ none := by
  cases h with
  | failed rest e g turn busy later eq => subst t; exact ⟨busy, turn, rfl, rfl, rfl, Option.some_ne_none e⟩
  | softReset rest w move busy srst eq => subst t; cases now
  | hardReset rest move eq => subst t; cases now
  | errorCleared rest w move busy clrerr eq => subst t; cases now
  | _ => subst t; exact absurd (was.symm.trans now) nofun

/-- While an error is held and no command is in flight, a step keeps the error or clears it, and starts no command: a completion
needs BUSY = 1, and an acceptance ERR = 0. -/
theorem StepDid.error_held {s t : State} (h : StepDid s t) (he : s.err = true) (hb : s.busy = false) :
    t.busy = false ∧
      ((t.err = true ∧ t.errCode = s.errCode ∧ t.lastCmd = s.lastCmd) ∨ (t.err = false ∧ t.errCode = none)) := by
  have inFlight {p : Prop} (busy : s.busy = true) : p := absurd (hb.symm.trans busy) nofun
  cases h with
  | failed rest e g turn busy later eq => exact inFlight busy
  | stored rest i d v turn busy ran eq => exact inFlight busy
  | judged rest ra b g turn busy isMrtest later eq => exact inFlight busy
  | counted rest g turn busy left later eq => exact inFlight busy
  | accepted rest w move busy err eq => exact absurd (he.symm.trans err) nofun
  | softReset rest w move busy srst eq => subst t; exact ⟨rfl, .inr ⟨rfl, rfl⟩⟩
  | hardReset rest move eq => subst t; exact ⟨rfl, .inr ⟨rfl, rfl⟩⟩
  | errorCleared rest w move busy clrerr eq => subst t; exact ⟨hb, .inr ⟨rfl, rfl⟩⟩
  | _ => subst t; exact ⟨hb, .inl ⟨he, rfl, rfl⟩⟩

/-- Settles O59: the first and the last clause by the inversion of a step, and a `CMD` write with ERR = 1 is dropped by
O31. -/
theorem errorsDoNotNest : Obligations.ErrorsDoNotNest := by
  intro s t h
  refine ⟨(step_did h).raised, ?_, (step_did h).error_held⟩
  intro w rest he move
  have ht := Host.Outcome.next.inj (h.symm.trans (cmdWriteAcceptsOrDrops s rest w move))
  rw [if_neg (by simp [he])] at ht
  subst t
  exact ⟨rfl, rfl, he, rfl, rfl⟩

/-! ### The source -/

theorem rndBelow_ready (d bound : Nat) {g : Source} (h : g.state = .ready) :
    rndBelow d bound g = (if bound ≤ d then .error .rngRange else .ok d, g.advance) := by
  rw [rndBelow, if_pos ((Source.isReady_iff g).mpr h)]
  by_cases out : bound ≤ d
  · rw [if_pos out, if_neg (Nat.not_lt.mpr out)]
  · rw [if_neg out, if_pos (Nat.not_le.mp out)]

theorem rndBelow_not_ready (d bound : Nat) {g : Source} (h : g.state ≠ .ready) :
    rndBelow d bound g = (.error .rngNotReady, g) :=
  if_neg (mt (Source.isReady_iff g).mp h)

/-- Settles O30: the two answers of a transaction, by whether the source is READY. -/
theorem rndBelowTransaction : Obligations.RndBelowTransaction := by
  intro d bound g
  split
  · exact rndBelow_ready d bound ‹_›
  · exact rndBelow_not_ready d bound ‹_›

/-- `init` of a source in UNINIT, with no command in flight (R214). -/
theorem hostInit_uninit (seed : Nat) {s : State} (hb : s.busy = false) (h : s.rng.state = .uninit) :
    hostInit seed s = .next (respond .none { s with rng := ⟨.ready, seed, 0⟩ }) := by
  simp [hostInit, hb, h]

/-- `clear` of a READY source, with no command in flight (R214). -/
theorem hostClear_ready {s : State} (hb : s.busy = false) (h : s.rng.state = .ready) :
    hostClear s = .next (respond .none { s with rng := { s.rng with state := .cleared } }) := by
  simp [hostClear, hb, h]

/-- The guard the host's moves on the source share refuses a move that BUSY or the source's state forbids (log entry 11). -/
theorem refused_of_guard {b : Bool} {allowed : Prop} [Decidable allowed] {t : State} {r r' : Refusal}
    (h : b = true ∨ ¬ allowed) :
    ∃ q : Refusal, (if b then .refused r else if allowed then .next t else .refused r' :
      Host.Outcome State Fault Refusal) = .refused q := by
  by_cases hb : b = true
  · exact ⟨r, if_pos hb⟩
  · exact ⟨r', (if_neg hb).trans (if_neg (h.resolve_left hb))⟩

theorem hostInit_refused (seed : Nat) {s : State} (h : s.busy = true ∨ s.rng.state ≠ .uninit) :
    ∃ r : Refusal, hostInit seed s = .refused r := refused_of_guard h

theorem hostClear_refused {s : State} (h : s.busy = true ∨ s.rng.state ≠ .ready) :
    ∃ r : Refusal, hostClear s = .refused r := refused_of_guard h

/-- Settles O47: each move is answered where its guard allows it, and refused where the guard does not. -/
theorem lifecycleMoves : Obligations.LifecycleMoves := by
  intro s rest seed
  refine ⟨fun move hb h => ?init, fun move hb h => ?clear, fun move why => ?initRefused, fun move why => ?clearRefused⟩
  case init => exact ⟨_, (step_cons move).trans (hostInit_uninit seed hb h), rfl, rfl⟩
  case clear => exact ⟨_, (step_cons move).trans (hostClear_ready hb h), rfl⟩
  case initRefused => rw [step_cons move]; exact hostInit_refused seed why
  case clearRefused => rw [step_cons move]; exact hostClear_refused why

end Sys2Proof.Machine
end
